-- ==== Sys2Proof/Word.lean ====
section
/-! DEFINITION. The machine's plain bit-vector types and the tuple of four words that `CPUID` writes. -/

namespace Sys2Proof

/-- A byte is 8 bits (R41). -/
abbrev Byte := BitVec 8

/-- Register values are unsigned 32-bit numbers (R10, R20). -/
abbrev Word := BitVec 32

/-- The four general registers of R20, and likewise the tuple `(a, b, c, d)` that R80 writes to
EAX, EBX, ECX and EDX. -/
structure Regs where
  eax : Word
  ebx : Word
  ecx : Word
  edx : Word
deriving DecidableEq, Repr, Inhabited

end Sys2Proof
end

