-- ==== Sys2Proof/Config.lean ====
section
/-! DEFINITION. What differs between processors (the record `cfg` of R5) and the free values the spec
leaves open (the draws of R14, the open fields of the processor at reset). -/

namespace Sys2Proof

/-- What an out-of-range input returns (R5 `OOR_POLICY`, R86, C1, D7). -/
inductive OorPolicy where
  /-- The information of the highest basic input: the prose, for Pentium 4 and Intel Xeon. -/
  | highestBasic
  /-- Four draws: the pseudocode's "Reserved; (* undefined*)". -/
  | draw
deriving DecidableEq, Repr

/-- The configuration record `cfg` of R5, field for field: the processor's identification values. -/
structure Cfg where
  /-- The processor has the instruction. -/
  cpuidImplemented : Bool
  /-- Highest basic input recognised (R84). -/
  maxBasic : Word
  /-- Extended function information exists (R84). -/
  extImplemented : Bool
  /-- Highest extended input recognised; unused without extended information. -/
  maxExt : Word
  oorPolicy : OorPolicy
  /-- Vendor string, characters 0 to 3 (R101). -/
  vendorEbx : Word
  /-- Vendor string, characters 4 to 7 (R101). -/
  vendorEdx : Word
  /-- Vendor string, characters 8 to 11 (R101). -/
  vendorEcx : Word
  stepping : BitVec 4
  model : BitVec 4
  family : BitVec 4
  ptype : BitVec 2
  extModel : BitVec 4
  extFamily : BitVec 4
  brandIndex : BitVec 8
  /-- CLFLUSH line size in units of 8 bytes (R115). -/
  clflushLine : BitVec 8
  /-- Local APIC ID given at power up (R117). -/
  apicId : BitVec 8
  /-- Feature flags (R119); bits 10 and 20 are never returned. -/
  features : Word
  l2Eax : Word
  l2Ebx : Word
  l2Ecx : Word
  l2Edx : Word
  /-- Processor serial number bits 31:0 (R158). -/
  psnLo : Word
  /-- Processor serial number bits 63:32 (R158). -/
  psnHi : Word
  /-- The register values of inputs 80000002H to 80000004H (R172). -/
  brandWords : Vector Word 12
deriving DecidableEq, Repr

/-- The draws one execution of `CPUID` can make: one field for each reserved output register or field
listed in U2, and the four of the out-of-range arm (R6, R14, R86). -/
structure Draws where
  /-- Input 1, EAX[31:24] (R111). -/
  versionHigh : BitVec 8
  /-- Input 1, EAX[15:14] (R109). -/
  versionMid : BitVec 2
  /-- Input 1, EBX[23:16] (R116). -/
  miscReserved : BitVec 8
  /-- Input 1, ECX (R118). -/
  leaf1Ecx : Word
  /-- Input 1, EDX[10] (R130). -/
  feature10 : BitVec 1
  /-- Input 1, EDX[20] (R140). -/
  feature20 : BitVec 1
  /-- Input 3, EAX (R158). -/
  serialEax : Word
  /-- Input 3, EBX (R158). -/
  serialEbx : Word
  /-- Input 80000000H, EBX (R170). -/
  extMaxEbx : Word
  /-- Input 80000000H, ECX (R170). -/
  extMaxEcx : Word
  /-- Input 80000000H, EDX (R170). -/
  extMaxEdx : Word
  /-- Input 80000001H, all four registers (R171). -/
  extSignature : Regs
  /-- An out-of-range input under `draw`, all four registers (R86). -/
  outOfRange : Regs
deriving DecidableEq, Repr, Inhabited

/-- The free values of the `n`-th execution of `CPUID` (R14): no body, so that nothing can be proved of
them and a claim holds for every draw. DESIGN CHOICE, log 7. -/
opaque Config.draws (n : Nat) : Draws

/-- The fields that `P4FIRST` leaves open (R7). -/
structure P4Open where
  stepping : BitVec 4
  extModel : BitVec 4
  extFamily : BitVec 4
  brandIndex : BitVec 8
  clflushLine : BitVec 8
  apicId : BitVec 8
  features : Word
  /-- Open "subject only to rule R173" (R184): see `Cfg.BrandFormat`. -/
  brandWords : Vector Word 12
deriving DecidableEq, Repr, Inhabited

/-- What the processor at reset holds in the fields that R7 leaves open, but for the brand words: no body. DESIGN CHOICE,
log 2. -/
opaque Config.resetOpen : P4Open

end Sys2Proof
end

