-- ==== Sys2Proof/Machine/Bits.lean ====
section
/-! DEFINITION. Bit fields and bytes of a 32-bit register (R9, R43). -/

namespace Sys2Proof.Machine

/-- Byte `k` of a register is bits [8k+7:8k] (R9). -/
def byteOf (v : Word) (k : Nat) : Byte := v.extractLsb' (8 * k) 8

/-- Bit `i` of a register, bit 0 the least significant (R9). -/
def bitOf (v : Word) (i : Nat) : Bool := v.getLsbD i

/-- The four bytes of a register, the least significant first: the order in which text sits in a
register (R43). -/
def wordBytes (v : Word) : List Byte := [byteOf v 0, byteOf v 1, byteOf v 2, byteOf v 3]

end Sys2Proof.Machine
end

