-- ==== Sys2Proof/Machine/Processors.lean ====
section
/-! DEFINITION. Which configurations the document covers (R8), the processor families and their highest
inputs (R84), and the one processor whose values the document gives (R7). -/

namespace Sys2Proof

open Sys2Proof.Machine

/-- String byte `i` is byte `i mod 4` of `BRAND_WORDS[i div 4]` (R174, D12). -/
def Cfg.brandByte (c : Cfg) (i : Fin 48) : Byte := byteOf c.brandWords[i.val / 4] (i.val % 4)

/-- An ASCII character is a byte below 80H, the null and the control characters among them. PRESUMED, log 31. -/
abbrev isAscii (b : Byte) : Prop := b < 0x80#8

/-- The 48th byte of the brand string is null in a configuration with extended information (R173). -/
abbrev Cfg.BrandTerminated (c : Cfg) : Prop := c.extImplemented = true → c.brandByte 47 = 0#8

/-- "The first 47 bytes contain ASCII characters and the 48th byte is defined to be null (0)" (R173). -/
def Cfg.brandFormatted (c : Cfg) : Bool :=
  decide (∀ i : Fin 48, if i.val < 47 then isAscii (c.brandByte i) else c.brandByte i = 0#8)

/-- The brand string has its format in a configuration with extended information (R173). -/
abbrev Cfg.BrandFormat (c : Cfg) : Prop := c.extImplemented = true → c.brandFormatted = true

/-- Which configurations are admitted: the bounds of R8 (D11), and the format that R173 gives the brand string. The
model refuses any other (log 16, log 21). -/
abbrev Cfg.WellFormed (c : Cfg) : Prop :=
  (c.cpuidImplemented = true → 1#32 ≤ c.maxBasic ∧ c.maxBasic ≤ 3#32) ∧
  (c.extImplemented = true →
    c.cpuidImplemented = true ∧ 0x80000000#32 ≤ c.maxExt ∧ c.maxExt ≤ 0x80000004#32) ∧
  (2#32 ≤ c.maxBasic → byteOf c.l2Eax 0 = 1#8) ∧
  c.BrandFormat

/-- `P4FIRST`, "the first processor in the Intel Pentium 4 processor family", over the fields it leaves
open (R7). The serial number is unused there (`MAX_BASIC` < 3). -/
def Cfg.p4first (o : P4Open) : Cfg where
  cpuidImplemented := true
  maxBasic := 2#32
  extImplemented := true
  maxExt := 0x80000004#32
  oorPolicy := .highestBasic
  vendorEbx := 0x756E6547#32
  vendorEdx := 0x49656E69#32
  vendorEcx := 0x6C65746E#32
  stepping := o.stepping
  model := 0b0000#4
  family := 0b1111#4
  ptype := 0b00#2
  extModel := o.extModel
  extFamily := o.extFamily
  brandIndex := o.brandIndex
  clflushLine := o.clflushLine
  apicId := o.apicId
  features := o.features
  l2Eax := 0x665B5001#32
  l2Ebx := 0#32
  l2Ecx := 0#32
  l2Edx := 0x007A7000#32
  psnLo := 0#32
  psnHi := 0#32
  brandWords := o.brandWords

/-- The rows of the table "Highest CPUID Source Operand for IA-32 Processors" (R84). -/
inductive ProcessorFamily where
  | earlierIntel486
  | laterIntel486OrPentium
  | pentiumProPentiumIIOrCeleron
  | pentiumIII
  | pentium4
  | intelXeon
deriving DecidableEq, Repr

/-- Highest basic input of a family; none where `CPUID` is not implemented (R84). -/
def ProcessorFamily.maxBasic : ProcessorFamily → Option Word
  | .earlierIntel486 => none
  | .laterIntel486OrPentium => some 1#32
  | .pentiumProPentiumIIOrCeleron => some 2#32
  | .pentiumIII => some 3#32
  | .pentium4 => some 2#32
  | .intelXeon => some 2#32

/-- Highest extended input of a family; none where extended information is not implemented (R84). -/
def ProcessorFamily.maxExt : ProcessorFamily → Option Word
  | .earlierIntel486 => none
  | .laterIntel486OrPentium => none
  | .pentiumProPentiumIIOrCeleron => none
  | .pentiumIII => none
  | .pentium4 => some 0x80000004#32
  | .intelXeon => some 0x80000004#32

/-- The out-of-range policy the spec gives a family's configurations (R86, C1, D7). -/
def ProcessorFamily.oorPolicy : ProcessorFamily → OorPolicy
  | .pentium4 => .highestBasic
  | .intelXeon => .highestBasic
  | .earlierIntel486 => .draw
  | .laterIntel486OrPentium => .draw
  | .pentiumProPentiumIIOrCeleron => .draw
  | .pentiumIII => .draw

/-- A configuration is of a family when its four fields are those of the family's row (R84). -/
abbrev Cfg.IsOf (c : Cfg) (f : ProcessorFamily) : Prop :=
  c.cpuidImplemented = f.maxBasic.isSome ∧
  (∀ m ∈ f.maxBasic, c.maxBasic = m) ∧
  c.extImplemented = f.maxExt.isSome ∧
  (∀ m ∈ f.maxExt, c.maxExt = m)

end Sys2Proof
end

