-- ==== Sys2Proof/Machine/Leaves.lean ====
section
/-! DEFINITION. `info(n)` of R80: what `CPUID` returns for each input the spec describes (R85). -/

namespace Sys2Proof.Machine

/-- EAX for input 1: version information (R103, R104). -/
def versionInfo (c : Cfg) (d : Draws) : Word :=
  d.versionHigh ++ c.extFamily ++ c.extModel ++ d.versionMid ++ c.ptype ++ c.family ++ c.model ++ c.stepping

/-- EBX for input 1: APIC ID, reserved, CLFLUSH line size, brand index (R103, R113). -/
def miscInfo (c : Cfg) (d : Draws) : Word :=
  c.apicId ++ d.miscReserved ++ c.clflushLine ++ c.brandIndex

/-- EDX for input 1: `features()` (R119). Bits 10 and 20 are draws (R130, R140); bits 27 to 31 are the
configuration's, with no meaning attached (R147 to R151). -/
def featureFlags (c : Cfg) (d : Draws) : Word :=
  c.features.extractLsb' 21 11 ++ d.feature20 ++ c.features.extractLsb' 11 9 ++ d.feature10
    ++ c.features.extractLsb' 0 10

/-- `info(0)`: highest basic input and vendor string (R100). -/
def infoVendor (c : Cfg) : Regs where
  eax := c.maxBasic
  ebx := c.vendorEbx
  ecx := c.vendorEcx
  edx := c.vendorEdx

/-- `info(1)`: version, brand index, line size, APIC ID, features (R103, R118). -/
def infoVersion (c : Cfg) (d : Draws) : Regs where
  eax := versionInfo c d
  ebx := miscInfo c d
  ecx := d.leaf1Ecx
  edx := featureFlags c d

/-- `info(2)`: cache and TLB information (R152). -/
def infoCaches (c : Cfg) : Regs where
  eax := c.l2Eax
  ebx := c.l2Ebx
  ecx := c.l2Ecx
  edx := c.l2Edx

/-- `info(3)`: processor serial number (R158). DESIGN CHOICE, log 29: the same where feature bit 18 is 0, for which
the source states no result (U16). -/
def infoSerial (c : Cfg) (d : Draws) : Regs where
  eax := d.serialEax
  ebx := d.serialEbx
  ecx := c.psnLo
  edx := c.psnHi

/-- `info(80000000H)`: highest extended input (R170). -/
def infoExtMax (c : Cfg) (d : Draws) : Regs where
  eax := c.maxExt
  ebx := d.extMaxEbx
  ecx := d.extMaxEcx
  edx := d.extMaxEdx

/-- `info(80000001H)`: reserved in all four registers (R171). -/
def infoExtSignature (d : Draws) : Regs := d.extSignature

/-- `info(80000002H + k)`: sixteen bytes of the brand string (R172). -/
def infoBrand (c : Cfg) (k : Fin 3) : Regs where
  eax := c.brandWords[4 * k.val]
  ebx := c.brandWords[4 * k.val + 1]
  ecx := c.brandWords[4 * k.val + 2]
  edx := c.brandWords[4 * k.val + 3]

/-- `info(n)` of R80; none for an input the spec has no rule for (R85), which a well-formed configuration
never selects. -/
def info (c : Cfg) (d : Draws) (n : Word) : Option Regs :=
  if n = 0#32 then some (infoVendor c)
  else if n = 1#32 then some (infoVersion c d)
  else if n = 2#32 then some (infoCaches c)
  else if n = 3#32 then some (infoSerial c d)
  else if n = 0x80000000#32 then some (infoExtMax c d)
  else if n = 0x80000001#32 then some (infoExtSignature d)
  else if n = 0x80000002#32 then some (infoBrand c 0)
  else if n = 0x80000003#32 then some (infoBrand c 1)
  else if n = 0x80000004#32 then some (infoBrand c 2)
  else none

end Sys2Proof.Machine
end

