-- ==== Sys2Proof/Machine/State.lean ====
section
/-! DEFINITION. The machine's state as plain data, the reasons a step can stop, and the state at reset. -/

namespace Sys2Proof.Machine

/-- The code memory: a partial map from byte addresses to bytes (R42), as a list of address and byte in
rising order of address. An address not listed is outside the code memory and has no value (log 14). -/
abbrev Memory := List Host.Cell

/-- The bits of EFLAGS that the spec names (R25, R26). -/
structure Eflags where
  /-- The ID flag, bit 21 (R25). -/
  id : Bool
  /-- EFLAGS.VIF, position not given (R26). -/
  vif : Bool
  /-- EFLAGS.VIP, position not given (R26). -/
  vip : Bool
deriving DecidableEq, Repr

/-- The state of the machine. -/
structure State where
  /-- EAX, EBX, ECX, EDX (R20). -/
  regs : Regs
  /-- EAX has been written or supplied at launch (R38). Where it has not, its value is read by nothing; log 8. -/
  eaxWritten : Bool
  /-- The address of the first byte of the current instruction (R24, D1). -/
  pc : Word
  /-- The named flags (R25, R26); log 5. -/
  eflags : Eflags
  /-- The processor's identification values, read-only system state (R32); log 1. -/
  cfg : Cfg
  /-- The read-only code memory (R42). -/
  code : Memory
  /-- `CODE_END`, the address just past the launch's last instruction (R229, D13). -/
  codeEnd : Word
  /-- The model's own counter: how many `CPUID` have completed, which numbers the draws (R14); log 7. -/
  executions : Nat
deriving DecidableEq, Repr

/-- The exceptions the source names (R202). -/
inductive ExceptionName where
  /-- #UD, invalid opcode (R201). -/
  | invalidOpcode
  /-- Machine check (R203). -/
  | machineCheck
deriving DecidableEq, Repr

/-- The machine stops with a fault. -/
inductive Fault where
  /-- An exception, with its name and the `pc` of the faulting instruction (R206, D8). Raised by
  `execCpuid` with `invalidOpcode` where the processor lacks `CPUID`; the model raises no machine check
  (R203, D18). Safe: the run ends where a processor would enter a handler (log 12). -/
  | exception (name : ExceptionName) (pc : Word)
  /-- EAX read before anything has written it, at the `pc` of the reading instruction (R38, R230(c)). Raised by
  `execCpuid`, in a run whose launch supplied no EAX; never from reset. Safe: the run ends where a processor would go
  on with some value (log 8). -/
  | eaxUnwritten (pc : Word)
deriving DecidableEq, Repr

/-- The model has no meaning for the step. -/
inductive Refusal where
  /-- An instruction with no meaning in `exec`; raised by no arm of this model. Safe. -/
  | notModelled (mnemonic : String)
  /-- `pc` = `CODE_END`: the run has ended, finally and without fault (R229, R230(a)); raised by `step`, for the
  outcome `RunOutcome.final`, since the host's interface has no fourth outcome. Safe (log 13). -/
  | runEnded
  /-- The configuration is not one the document covers (R8, R173, R230(b)); raised by `State.launch`, `stepOutcome` and
  `execCpuid`. Safe (log 16). -/
  | illFormedConfig
  /-- `pc` is FFFFFFFEH or FFFFFFFFH (R24, R61, D2); raised by `fetch`. Safe (log 9). -/
  | pcAtTop
  /-- A byte to fetch is outside the code memory (R61, R230(b)); raised by `fetch`. Safe (log 14). -/
  | fetchOutsideCode
  /-- The two bytes at `pc` are not in the opcode table (R65, R67, D5); raised by `fetchInstr`. Safe (log 11). -/
  | notInOpcodeTable (b0 b1 : Byte)
deriving DecidableEq, Repr

/-- The machine after reset. The spec states no reset value (R37): the processor is `P4FIRST` with its
open fields open and an empty brand string (log 1, log 2); registers, `pc`, flags and `CODE_END` are the values of log 3, 4, 5, 13
and count as written (log 8); nothing is launched, so the code memory lists nothing (log 14, log 22). -/
def State.reset : State where
  regs := { eax := 0#32, ebx := 0#32, ecx := 0#32, edx := 0#32 }
  eaxWritten := true
  pc := 0#32
  eflags := { id := false, vif := false, vip := false }
  cfg := Cfg.p4first { Config.resetOpen with brandWords := Vector.replicate 12 0#32 }
  code := []
  codeEnd := 0#32
  executions := 0

end Sys2Proof.Machine
end

