-- ==== Sys2Proof/Machine/Memory.lean ====
section
/-! DEFINITION. The code memory: its canonical form, reading a byte, and placing bytes at launch (R42). -/

namespace Sys2Proof.Machine

/-- Addresses rise strictly, start at `lo` or above, and are 32-bit addresses (R42). -/
def Memory.risingFrom : Nat → Memory → Bool
  | _, [] => true
  | lo, (a, _) :: m => decide (lo ≤ a) && decide (a < 2 ^ 32) && Memory.risingFrom (a + 1) m

/-- The canonical form. No entry equals what an unlisted address reads as, since that is no value. -/
def Memory.wf (m : Memory) : Bool := Memory.risingFrom 0 m

/-- `MemRead(addr, 1)` of R13 and R61: the byte at an address, none outside the code memory. -/
def Memory.read : Memory → Nat → Option Byte
  | [], _ => none
  | (b, v) :: m, a => if a = b then some v else Memory.read m a

/-- Place one byte. Only a launch does this: no instruction writes memory (R47). -/
def Memory.write : Memory → Nat → Byte → Memory
  | [], a, v => [(a, v)]
  | (b, w) :: m, a, v =>
    if a < b then (a, v) :: (b, w) :: m
    else if a = b then (a, v) :: m
    else (b, w) :: Memory.write m a v

/-- Place bytes at consecutive addresses from `a`, the addresses that exist (below 2^32). -/
def Memory.writeBytes (m : Memory) (a : Nat) : List Byte → Memory
  | [] => m
  | v :: vs => if a < 2 ^ 32 then (m.write a v).writeBytes (a + 1) vs else m

end Sys2Proof.Machine
end

