-- ==== Sys2Proof/Syntax.lean ====
section
/-! DEFINITION. The instructions: one constructor per row of spec/opcode_table.json (R63). -/

namespace Sys2Proof

/-- The complete opcode map has one row (R63); the instruction has no explicit operand (R62). -/
inductive Instr where
  /-- `CPUID`, bytes 0F A2 (R60, R80). -/
  | cpuid
deriving DecidableEq, Repr

end Sys2Proof
end

