-- ==== Sys2Proof/Machine/Operands.lean ====
section
/-! DEFINITION. The registers as operands: names, parts, and the implicit operands of `CPUID` (R11, R20 to
R22, R62). -/

namespace Sys2Proof.Machine

/-- The general registers (R20). -/
inductive Reg where
  | eax
  | ebx
  | ecx
  | edx
deriving DecidableEq, Repr

/-- `x[r]` (R13). -/
def Regs.get (q : Regs) : Reg → Word
  | .eax => q.eax
  | .ebx => q.ebx
  | .ecx => q.ecx
  | .edx => q.edx

/-- `x[r] <- v` (R13). -/
def Regs.set (q : Regs) (r : Reg) (v : Word) : Regs :=
  match r with
  | .eax => { q with eax := v }
  | .ebx => { q with ebx := v }
  | .ecx => { q with ecx := v }
  | .edx => { q with edx := v }

/-- AL, BL, CL, DL: bits 7:0 of a register, a name for a part of it (R11, R21). -/
def Regs.lowByte (q : Regs) (r : Reg) : Byte := byteOf (Regs.get q r) 0

/-- The implicit sources of an instruction (R62). -/
def implicitSources : Instr → List Reg
  | .cpuid => [.eax]

/-- The implicit destinations of an instruction (R62, R81). -/
def implicitDestinations : Instr → List Reg
  | .cpuid => [.eax, .ebx, .ecx, .edx]

/-- The input value: "the input value entered initially in the EAX register", all 32 bits (R62, R82). -/
def inputValue (s : State) : Word := s.regs.eax

/-- A state in which software has loaded EAX. No instruction of the spec does this (R70): it is the
`x[EAX] <- n` of R177 and of a launch (R38). -/
def loadEax (n : Word) (s : State) : State :=
  { s with regs := Regs.set s.regs .eax n, eaxWritten := true }

end Sys2Proof.Machine
end

