-- ==== Sys2Proof/Machine/Ops.lean ====
section
/-! DEFINITION. The operations the meaning and the step are made of: completing an instruction, raising an
exception, fetching, launching. -/

namespace Sys2Proof.Machine

/-- Taking an exception: a terminal fault that records its name and the `pc` of the instruction; nothing
else changes (R201, R206, D8). There is no return from it (R207). -/
def raiseException (name : ExceptionName) (s : State) : Host.Outcome State Fault Refusal :=
  .fault (.exception name s.pc)

/-- The number the source states for an exception, where it states one (R202). -/
def exceptionNumber : ExceptionName → Option Nat
  | .invalidOpcode => none
  | .machineCheck => some 18

/-- The instruction completes: all four registers written, `pc` moved past its two bytes, the execution
counted (R80, R81, R93). Serialising takes no step of its own (R51, D10; log 17). -/
def completeWith (q : Regs) (s : State) : State :=
  { s with regs := q, eaxWritten := true, pc := s.pc + 2#32, executions := s.executions + 1 }

/-- The two bytes at `pc` (R61): refused at the top of the address space and outside the code memory. -/
def fetch (s : State) : Except Refusal (Byte × Byte) :=
  if 0xFFFFFFFE#32 ≤ s.pc then .error .pcAtTop
  else
    match s.code.read s.pc.toNat, s.code.read (s.pc.toNat + 1) with
    | some b0, some b1 => .ok (b0, b1)
    | _, _ => .error .fetchOutsideCode

/-- What the caller of a launch supplies (R38, R229, D9, D13). -/
structure Launch where
  /-- `CODE_BASE`, the first `pc`. -/
  codeBase : Word
  /-- The bytes of the code, from `CODE_BASE` up to, not including, `CODE_END`. -/
  code : List Byte
  cfg : Cfg
  /-- EAX; none where the launch leaves it unwritten (R38). -/
  eax : Option Word
  ebx : Word
  ecx : Word
  edx : Word
  eflags : Eflags
deriving DecidableEq, Repr

/-- The state a launch begins in, or the refusal of a configuration the document does not cover, which R8 has
checked "before a run". An EAX not supplied holds 0, which nothing reads (log 8). DESIGN CHOICE, log 28: `CODE_END` is
counted modulo 2^32, and bytes past FFFFFFFFH are dropped. -/
def State.launch (l : Launch) : Except Refusal State :=
  if l.cfg.WellFormed then
    .ok
      { regs := { eax := l.eax.getD 0#32, ebx := l.ebx, ecx := l.ecx, edx := l.edx }
        eaxWritten := l.eax.isSome
        pc := l.codeBase
        eflags := l.eflags
        cfg := l.cfg
        code := Memory.writeBytes [] l.codeBase.toNat l.code
        codeEnd := l.codeBase + BitVec.ofNat 32 l.code.length
        executions := 0 }
  else .error .illFormedConfig

end Sys2Proof.Machine
end

