-- ==== Sys2Proof/Machine/Cpuid.lean ====
section
/-! DEFINITION. The meaning of `CPUID` (R80): how the input selects the information (R83), what an
out-of-range input returns (R86), and the instruction itself. -/

namespace Sys2Proof.Machine

/-- The classes of input values (R83). -/
inductive InputClass where
  | basic (n : Word)
  | extended (n : Word)
  | outOfRange
deriving DecidableEq, Repr

/-- `classify(in)`: unsigned comparisons with the configuration's highest values (R83, D17). -/
def classify (c : Cfg) (n : Word) : InputClass :=
  if n ≤ c.maxBasic then .basic n
  else if c.extImplemented = true ∧ 0x80000000#32 ≤ n ∧ n ≤ c.maxExt then .extended n
  else .outOfRange

/-- `oor()`: what an out-of-range input returns (R86, C1, D7; log 15). -/
def outOfRangeInfo (c : Cfg) (d : Draws) : Option Regs :=
  match c.oorPolicy with
  | .highestBasic => info c d c.maxBasic
  | .draw => some d.outOfRange

/-- The four values that an input selects (R80, R83, R86). -/
def cpuidResult (c : Cfg) (d : Draws) (n : Word) : Option Regs :=
  match classify c n with
  | .basic n => info c d n
  | .extended n => info c d n
  | .outOfRange => outOfRangeInfo c d

/-- `CPUID` (R80): #UD on a processor without it (R88, R201); otherwise EAX is read once, a fault where nothing has
written it (R38, R230(c); log 8), the four registers are written, no flag changes (R27, R87), and `pc` moves on by 2
(R93). A configuration the document does not cover is refused (R8; log 16); the last refusal is met by no well-formed
one. -/
def execCpuid (s : State) : Host.Outcome State Fault Refusal :=
  if ¬ s.cfg.WellFormed then .refused .illFormedConfig
  else if s.cfg.cpuidImplemented = false then raiseException .invalidOpcode s
  else if s.eaxWritten = false then .fault (.eaxUnwritten s.pc)
  else
    match cpuidResult s.cfg (Config.draws s.executions) (inputValue s) with
    | some q => .next (completeWith q s)
    | none => .refused .illFormedConfig

end Sys2Proof.Machine
end

