-- ==== Sys2Proof/WellFormed.lean ====
section
/-! DEFINITION. Well-formedness of instructions. The configuration's check (R8) is `Cfg.WellFormed` in
Machine/Processors.lean. -/

namespace Sys2Proof

/-- `CPUID` has no field that could be ill-formed: "every bit of both bytes is fixed" (R60, R62). -/
def Instr.WellFormed : Instr → Bool
  | .cpuid => true

end Sys2Proof
end

