-- ==== Sys2Proof/Decode.lean ====
section
/-! DEFINITION. Bytes to instructions and back (R60, R61, R65, R67, R71). -/

namespace Sys2Proof

/-- Why a sequence of bytes is not an instruction of the table. -/
inductive DecodeError where
  /-- Fewer than the two bytes of the one format (R60). -/
  | truncated
  /-- Two bytes that are not a row of the table: another order, another opcode, a prefix (R65, R67). -/
  | notInTable (b0 b1 : Byte)
deriving DecidableEq, Repr

/-- Decoding, total on any bytes in address order: the instruction and the bytes after it, or a named
rejection. `0F` is the byte at the lower address (R61, D3). -/
def decode : List Byte → Except DecodeError (Instr × List Byte)
  | b0 :: b1 :: rest =>
    if b0 = 0x0F#8 ∧ b1 = 0xA2#8 then .ok (.cpuid, rest) else .error (.notInTable b0 b1)
  | _ => .error .truncated

/-- The bytes of an instruction in address order (R60). -/
def encode : Instr → List Byte
  | .cpuid => [0x0F#8, 0xA2#8]

/-- The length in bytes; "for the one instruction in scope the length is always 2" (R60, R67). -/
def Instr.length : Instr → Nat
  | .cpuid => 2

/-- The two bytes, in address order, of a table number: the table places the first byte in bits 15:8 and
the second in bits 7:0 of one 16-bit word (R71, log 10). -/
def tableBytes (nbits w : Nat) : List Byte :=
  [BitVec.ofNat 8 (w % 2 ^ nbits / 256), BitVec.ofNat 8 (w % 2 ^ nbits)]

/-- What the decoder reads from a table number `w` of `nbits` bits. -/
def decodeTableWord (nbits w : Nat) : Option Instr :=
  match decode (tableBytes nbits w) with
  | .ok (i, _) => some i
  | .error _ => none

/-- `CPUID` by its word written out from R60's table: 0000 1111, 1010 0010. -/
theorem decode_cpuid_word : decode [0b00001111#8, 0b10100010#8] = .ok (.cpuid, []) := by
  decide

end Sys2Proof
end

