-- ==== Sys2Proof/Machine/Fetch.lean ====
section
/-! DEFINITION. Fetching an instruction, the end of a run, and placing an instruction where the next step
fetches it (R61, R65, R229). -/

namespace Sys2Proof.Machine

/-- The instruction at `pc`, or why there is none (R61, R65, R67). -/
def fetchInstr (s : State) : Except Refusal Instr :=
  match fetch s with
  | .error r => .error r
  | .ok (b0, b1) =>
    match decode [b0, b1] with
    | .ok (i, _) => .ok i
    | .error _ => .error (.notInOpcodeTable b0 b1)

/-- The run has ended: `pc` = `CODE_END` (R229, R230(a)). -/
abbrev atEnd (s : State) : Prop := s.pc = s.codeEnd

/-- Bytes placed in the code memory at `pc`; where the run had ended there, `CODE_END` moves past them,
since otherwise no step would fetch them (R229; log 22). -/
def placeAtPc (bytes : List Byte) (s : State) : State :=
  { s with
    code := s.code.writeBytes s.pc.toNat bytes
    codeEnd := if atEnd s then s.pc + BitVec.ofNat 32 bytes.length else s.codeEnd }

end Sys2Proof.Machine
end

