-- ==== Sys2Proof/Machine/Run.lean ====
section
/-! DEFINITION. The outcomes of a step and of a run, as the spec counts them (R229, R230). -/

namespace Sys2Proof.Machine

/-- The outcomes of R230: (a), (b), (c) and (d). -/
inductive RunOutcome where
  /-- The run has ended, finally and without fault (R229). -/
  | final
  | refusal (r : Refusal)
  | fault (f : Fault)
  | next (s : State)
deriving DecidableEq, Repr

/-- A meaning's answer as an outcome of the step. -/
def RunOutcome.ofExec : Host.Outcome State Fault Refusal → RunOutcome
  | .next t => .next t
  | .fault f => .fault f
  | .refused r => .refusal r

/-- One step (R230): a configuration the document does not cover takes none (R8, whose check comes before a run); then
the end of the run, or fetch, decode and execute. -/
def stepOutcome (s : State) : RunOutcome :=
  if ¬ s.cfg.WellFormed then .refusal .illFormedConfig
  else if atEnd s then .final
  else
    match fetchInstr s with
    | .ok i => .ofExec (exec i s)
    | .error r => .refusal r

/-- A run of at most `n` steps: it goes on while a step answers a next state. -/
def run : Nat → State → RunOutcome
  | 0, s => .next s
  | n + 1, s =>
    match stepOutcome s with
    | .next t => run n t
    | .final => .final
    | .refusal r => .refusal r
    | .fault f => .fault f

end Sys2Proof.Machine
end

