-- ==== Sys2Proof/Machine/Step.lean ====
section
/-! DEFINITION. One step of the machine (R230), and the host's way to place its next instruction. -/

namespace Sys2Proof.Machine

/-- One step (R230) in the host's three outcomes, of which the end of a run is a refusal of its own name (log 13). -/
def step (s : State) : Host.Outcome State Fault Refusal :=
  match stepOutcome s with
  | .final => .refused .runEnded
  | .refusal r => .refused r
  | .fault f => .fault f
  | .next t => .next t

/-- `s` with the instruction of the table number `w` where `step` fetches next: a load from outside the machine
(DESIGN CHOICE, log 22), the number read with its high byte at `pc` (DEDUCED, log 10). -/
def State.withFetchWord (s : State) (nbits w : Nat) : State := placeAtPc (tableBytes nbits w) s

end Sys2Proof.Machine
end

