-- ==== Sys2Proof/Machine/Flags.lean ====
section
/-! DEFINITION. The ID flag as software sees it and the test for the instruction's presence (R25, R92,
R221). `CPUID` reads and writes no flag (R27, R87): no meaning uses this file. -/

namespace Sys2Proof.Machine

/-- Software writes the ID flag. Where the processor has `CPUID` the flag holds either value written;
where it has not, software "cannot both set and clear it" (R25): here the flag keeps its value, whichever
that is (DEDUCED, log 6). -/
def writeIdFlag (v : Bool) (s : State) : State :=
  if s.cfg.cpuidImplemented then { s with eflags := { s.eflags with id := v } } else s

/-- Software sets the flag, looks, clears it, looks: it saw both values (R25, R221). -/
def canSetAndClearIdFlag (s : State) : Bool :=
  let set := writeIdFlag true s
  let cleared := writeIdFlag false set
  set.eflags.id && !cleared.eflags.id

end Sys2Proof.Machine
end

