-- ==== Sys2Proof/Machine/Identification.lean ====
section
/-! DEFINITION. What software reads in the results of inputs 0 and 1 other than the feature flags: vendor
string, version information, CLFLUSH line size, APIC ID, brand index (R101, R104 to R117, R183). -/

namespace Sys2Proof.Machine

/-- The vendor string: twelve characters, registers in the order EBX, EDX, ECX, low byte first (R101). -/
def vendorString (q : Regs) : List Byte := wordBytes q.ebx ++ wordBytes q.edx ++ wordBytes q.ecx

/-- The twelve ASCII characters of "GenuineIntel" (R101). -/
def genuineIntel : List Byte :=
  [0x47#8, 0x65#8, 0x6E#8, 0x75#8, 0x69#8, 0x6E#8, 0x65#8, 0x49#8, 0x6E#8, 0x74#8, 0x65#8, 0x6C#8]

/-- The vendor test software makes before it reads feature flags (R223). -/
def vendorIsIntel (q : Regs) : Bool := vendorString q == genuineIntel

/-- Stepping ID, EAX[3:0] (R105). -/
def steppingField (eax : Word) : BitVec 4 := eax.extractLsb' 0 4

/-- Model, EAX[7:4] (R106). -/
def modelField (eax : Word) : BitVec 4 := eax.extractLsb' 4 4

/-- Family, EAX[11:8] (R107). -/
def familyField (eax : Word) : BitVec 4 := eax.extractLsb' 8 4

/-- Processor type, EAX[13:12] (R108). -/
def ptypeField (eax : Word) : BitVec 2 := eax.extractLsb' 12 2

/-- Extended model, EAX[19:16] (R110). -/
def extModelField (eax : Word) : BitVec 4 := eax.extractLsb' 16 4

/-- Extended family, EAX[23:20] (R110). -/
def extFamilyField (eax : Word) : BitVec 4 := eax.extractLsb' 20 4

/-- The table "Processor Type Field" (R108). -/
inductive ProcessorType where
  | originalOem
  | overDrive
  /-- Not applicable to Intel486 processors. -/
  | dual
  | intelReserved
deriving DecidableEq, Repr

/-- The processor type an encoding names (R108). -/
def processorType (f : BitVec 2) : ProcessorType :=
  if f = 0b00#2 then .originalOem
  else if f = 0b01#2 then .overDrive
  else if f = 0b10#2 then .dual
  else .intelReserved

/-- A value of FH in a field marks its extended field as valid (R110). -/
def extendedValid (field : BitVec 4) : Bool := field == 0xF#4

/-- A family or model number: two hexadecimal digits, the extended field and FH, where the field is FH;
otherwise the field alone (R110). -/
def identificationNumber (field extended : BitVec 4) : BitVec 8 :=
  if extendedValid field then extended ++ 0xF#4 else 0#4 ++ field

/-- The full family number (R110). -/
def familyNumber (eax : Word) : BitVec 8 := identificationNumber (familyField eax) (extFamilyField eax)

/-- The full model number (R110). -/
def modelNumber (eax : Word) : BitVec 8 := identificationNumber (modelField eax) (extModelField eax)

/-- Brand index, EBX[7:0] (R114). -/
def brandIndexField (ebx : Word) : BitVec 8 := byteOf ebx 0

/-- The size in bytes of the line CLFLUSH flushes: 8 x EBX[15:8] (R55, R115). -/
def clflushLineBytes (ebx : Word) : Nat := 8 * (byteOf ebx 1).toNat

/-- Local APIC ID, EBX[31:24] (R117, C4). -/
def apicIdField (ebx : Word) : BitVec 8 := byteOf ebx 3

/-- The entries of the table "Mapping of Brand Indices" (R183). -/
inductive BrandIndexEntry where
  | notSupported
  | celeron
  | pentiumIII
  | pentiumIIIXeon
  | reserved
  | pentium4
deriving DecidableEq, Repr

/-- The entry of a brand index; 4 to 7 and 9 to 255 are reserved (R183, C9). -/
def brandIndexEntry (i : BitVec 8) : BrandIndexEntry :=
  if i = 0#8 then .notSupported
  else if i = 1#8 then .celeron
  else if i = 2#8 then .pentiumIII
  else if i = 3#8 then .pentiumIIIXeon
  else if i = 8#8 then .pentium4
  else .reserved

/-- The brand string that the table associates with an entry (R183). -/
def BrandIndexEntry.text : BrandIndexEntry → String
  | .notSupported => "This processor does not support the brand identification feature"
  | .celeron => "Celeron(R) processor"
  | .pentiumIII => "Pentium(R) III processor"
  | .pentiumIIIXeon => "Intel(R) Pentium III Xeon(R) processor"
  | .reserved => "Reserved for future processor"
  | .pentium4 => "Intel Pentium 4 processor"

end Sys2Proof.Machine
end

