-- ==== Sys2Proof/Machine/Brand.lean ====
section
/-! DEFINITION. Reading the brand string and choosing an identification technique (R173 to R181). -/

namespace Sys2Proof.Machine

/-- The sixteen bytes one input returns: EAX, EBX, ECX, EDX, each low byte first (R174, D12). -/
def regsBytes (q : Regs) : List Byte :=
  wordBytes q.eax ++ wordBytes q.ebx ++ wordBytes q.ecx ++ wordBytes q.edx

/-- The text of a brand string: up to the first null byte (R176). -/
def brandText (bytes : List Byte) : List Byte := bytes.takeWhile (fun b => b != 0#8)

/-- What the detection procedure concludes from EAX returned for input 80000000H (R177). -/
structure Detection where
  extendedSupported : Bool
  brandStringSupported : Bool
deriving DecidableEq, Repr

/-- The tests of the detection procedure (R177). -/
def detection (r : Word) : Detection where
  extendedSupported := r &&& 0x80000000#32 != 0#32
  brandStringSupported := r &&& 0x80000000#32 != 0#32 && decide (0x80000004#32 ≤ r)

/-- The identification techniques (R181). -/
inductive Technique where
  | brandString
  | brandIndexTable
  | signatureTable
deriving DecidableEq, Repr

/-- "Ordered by decreasing priority" (R181). -/
def techniques : List Technique := [.brandString, .brandIndexTable, .signatureTable]

/-- Whether the processor offers a technique: the brand string where detected (R177), the brand index where
it is not 0 (R114, R183), the table of type, family, model and stepping always (DEDUCED, log 23). -/
def techniqueAvailable (d : Detection) (brandIndex : BitVec 8) : Technique → Bool
  | .brandString => d.brandStringSupported
  | .brandIndexTable => brandIndex != 0#8
  | .signatureTable => true

/-- The available technique of the highest priority (R181). -/
def chooseTechnique (d : Detection) (brandIndex : BitVec 8) : Technique :=
  (techniques.find? (techniqueAvailable d brandIndex)).getD .signatureTable

end Sys2Proof.Machine
end

