-- ==== Sys2Proof/Machine/Descriptors.lean ====
section
/-! DEFINITION. Reading the cache and TLB information of input 2 (R153 to R157). -/

namespace Sys2Proof.Machine

/-- AL: how many executions give a complete description (R153). DESIGN CHOICE, log 30: AL is read so also where bit 31
of EAX is 1, for which R154 gives the other bits no meaning. -/
def repeatCount (q : Regs) : Nat := (byteOf q.eax 0).toNat

/-- Bit 31 is 0 where a register contains valid information (R154). -/
def registerValid (v : Word) : Bool := !bitOf v 31

/-- The bytes given, where their register is valid; a reserved register contributes none (R154, R155). -/
def descriptorBytes (v : Word) (bytes : List Byte) : List Byte := if registerValid v then bytes else []

/-- The descriptors: bytes 1 to 3 of EAX, bytes 0 to 3 of the others, of the valid registers. The order has
no meaning: "the descriptors may appear in any order" (R155). -/
def descriptors (q : Regs) : List Byte :=
  descriptorBytes q.eax [byteOf q.eax 1, byteOf q.eax 2, byteOf q.eax 3]
    ++ descriptorBytes q.ebx (wordBytes q.ebx)
    ++ descriptorBytes q.ecx (wordBytes q.ecx)
    ++ descriptorBytes q.edx (wordBytes q.edx)

/-- Page sizes as the descriptors give them (R156). -/
inductive PageSize where
  | kb4
  | mb4
  /-- "2-MByte or 4-MByte". -/
  | mb2OrMb4
deriving DecidableEq, Repr

/-- What a TLB or a cache holds (R156); the source calls the second-level cache only "cache". -/
inductive ContentKind where
  | instruction
  | code
  | data
  | unspecified
deriving DecidableEq, Repr

/-- What a descriptor names (R156). -/
inductive Descriptor where
  | null
  | tlb (kind : ContentKind) (entries : Nat) (pages : List PageSize)
  | cache (level : Nat) (kind : ContentKind) (kbytes ways lineBytes : Nat) (sectored : Bool)
deriving DecidableEq, Repr

/-- The six encodings recovered from the source; every other byte has no meaning in the spec (R156, U5). -/
def descriptorMeaning (b : Byte) : Option Descriptor :=
  if b = 0x00#8 then some .null
  else if b = 0x50#8 then some (.tlb .instruction 64 [.kb4, .mb2OrMb4])
  else if b = 0x5B#8 then some (.tlb .data 64 [.kb4, .mb4])
  else if b = 0x66#8 then some (.cache 1 .data 8 4 64 false)
  else if b = 0x70#8 then some (.cache 1 .code 12 4 64 false)
  else if b = 0x7A#8 then some (.cache 2 .unspecified 256 8 64 true)
  else none

end Sys2Proof.Machine
end

