-- ==== Sys2Proof/Machine/Features.lean ====
section
/-! DEFINITION. The feature flags of input 1 and what each reports (R26, R28, R119 to R151). -/

namespace Sys2Proof.Machine

/-- The features that the table names (R120 to R146, without the two reserved bits). -/
inductive Feature where
  | fpu | vme | de | pse | tsc | msr | pae | mce | cx8 | apic
  | sep | mtrr | pge | mca | cmov | pat | pse36 | psn | clfsh
  | ds | acpi | mmx | fxsr | sse | sse2
deriving DecidableEq, Repr

/-- The bit of EDX that reports a feature (R120 to R146). -/
def Feature.bit : Feature → Nat
  | .fpu => 0
  | .vme => 1
  | .de => 2
  | .pse => 3
  | .tsc => 4
  | .msr => 5
  | .pae => 6
  | .mce => 7
  | .cx8 => 8
  | .apic => 9
  | .sep => 11
  | .mtrr => 12
  | .pge => 13
  | .mca => 14
  | .cmov => 15
  | .pat => 16
  | .pse36 => 17
  | .psn => 18
  | .clfsh => 19
  | .ds => 21
  | .acpi => 22
  | .mmx => 23
  | .fxsr => 24
  | .sse => 25
  | .sse2 => 26

/-- All the named features, in the order of their bits. -/
def Feature.all : List Feature :=
  [.fpu, .vme, .de, .pse, .tsc, .msr, .pae, .mce, .cx8, .apic,
   .sep, .mtrr, .pge, .mca, .cmov, .pat, .pse36, .psn, .clfsh,
   .ds, .acpi, .mmx, .fxsr, .sse, .sse2]

/-- "A 1 indicates that the corresponding feature is supported" (R119). -/
def supports (edx : Word) (f : Feature) : Bool := bitOf edx f.bit

/-- What the table says of a bit of EDX (R119). -/
inductive FeatureBit where
  | named (f : Feature)
  /-- Bits 10 and 20: software must not test them (R130, R140). -/
  | reserved
  /-- Bits 27 to 31: the rows are lost, no meaning is attached (R147 to R151). -/
  | lost
deriving DecidableEq, Repr

/-- The row of a bit of EDX (R119). -/
def featureBit (i : Fin 32) : FeatureBit :=
  match Feature.all.find? (fun f => f.bit == i.val) with
  | some f => .named f
  | none => if i.val = 10 ∨ i.val = 20 then .reserved else .lost

/-- The instructions whose presence a flag reports (R4(a), R124 to R144). None is in the model. -/
inductive ReportedInstr where
  | rdtsc | rdmsr | wrmsr | cmpxchg8b | sysenter | sysexit | cmovcc | fcomi | fcmov | clflush | fxsave | fxrstor
deriving DecidableEq, Repr

/-- The features that must all be present for an instruction to be supported; FCOMI and FCMOV need both
CMOV and FPU (R124, R125, R128, R131, R135, R139, R144). -/
def ReportedInstr.needs : ReportedInstr → List Feature
  | .rdtsc => [.tsc]
  | .rdmsr => [.msr]
  | .wrmsr => [.msr]
  | .cmpxchg8b => [.cx8]
  | .sysenter => [.sep]
  | .sysexit => [.sep]
  | .cmovcc => [.cmov]
  | .fcomi => [.cmov, .fpu]
  | .fcmov => [.cmov, .fpu]
  | .clflush => [.clfsh]
  | .fxsave => [.fxsr]
  | .fxrstor => [.fxsr]

/-- Whether the flags report an instruction as supported. -/
def supportsInstr (edx : Word) (i : ReportedInstr) : Bool := i.needs.all (supports edx)

/-- The fields of CR4 and the flags of EFLAGS that the source names (R26, R28). -/
inductive ControlBit where
  | cr4Vme | cr4Pvi | cr4De | cr4Pse | cr4Tsd | cr4Mce | cr4Pge | cr4Osfxsr | eflagsVif | eflagsVip
deriving DecidableEq, Repr

/-- The control bits a feature brings with it (R26, R28). -/
def Feature.controlBits : Feature → List ControlBit
  | .vme => [.cr4Vme, .cr4Pvi, .eflagsVif, .eflagsVip]
  | .de => [.cr4De]
  | .pse => [.cr4Pse]
  | .tsc => [.cr4Tsd]
  | .mce => [.cr4Mce]
  | .pge => [.cr4Pge]
  | .fxsr => [.cr4Osfxsr]
  | .fpu | .msr | .pae | .cx8 | .apic | .sep | .mtrr | .mca | .cmov | .pat | .pse36 | .psn | .clfsh
  | .ds | .acpi | .mmx | .sse | .sse2 => []

end Sys2Proof.Machine
end

