-- ==== Sys2Proof/Machine/Procedures.lean ====
section
/-! DEFINITION. The software procedures the document gives, over the machine (R177, R178, R181, R221 to R224,
R227). Each loads EAX and executes `CPUID`; how software loads EAX is not in the spec (R70). -/

namespace Sys2Proof.Machine

/-- `x[EAX] <- n ; CPUID` (R177): the state after it, none where the instruction does not complete. -/
def query (n : Word) (s : State) : Option State :=
  match execCpuid (loadEax n s) with
  | .next t => some t
  | .fault _ => none
  | .refused _ => none

/-- The detection procedure of the brand string feature (R177). -/
def detectBrandString (s : State) : Option Detection :=
  (query 0x80000000#32 s).map fun t => detection t.regs.eax

/-- The three executions that read the brand string (R178), and its 48 bytes (R174). -/
def readBrandString (s : State) : Option (List Byte) :=
  (query 0x80000002#32 s).bind fun t₀ =>
  (query 0x80000003#32 t₀).bind fun t₁ =>
  (query 0x80000004#32 t₁).map fun t₂ =>
    regsBytes t₀.regs ++ regsBytes t₁.regs ++ regsBytes t₂.regs

/-- The duties before feature flags are read: the highest basic input reaches 1 and the vendor is Intel
(R222, R223); then the flags of input 1. -/
def readFeatureFlags (s : State) : Option Word :=
  (query 0#32 s).bind fun t =>
  if 1#32 ≤ t.regs.eax ∧ vendorIsIntel t.regs = true then (query 1#32 t).map fun u => u.regs.edx else none

/-- The descriptors of input 2, software having compared 2 with the highest basic input (R222); a count
other than 1 would need executions whose results the spec does not give (R34, R227). -/
def readDescriptors (s : State) : Option (List Byte) :=
  (query 0#32 s).bind fun t =>
  if 2#32 ≤ t.regs.eax then
    (query 2#32 t).bind fun u => if repeatCount u.regs = 1 then some (descriptors u.regs) else none
  else none

/-- The technique software should use on this processor (R181). -/
def identificationTechnique (s : State) : Option Technique :=
  (query 0x80000000#32 s).bind fun t =>
  (query 1#32 t).map fun u => chooseTechnique (detection t.regs.eax) (brandIndexField u.regs.ebx)

end Sys2Proof.Machine
end

