-- ==== Sys2Proof/Safety.lean ====
section
/-! DEFINITION. The terms in which statements speak of the machine: states in which `CPUID` completes, the
invariant of a launch, and the bits of a result that the spec determines. -/

namespace Sys2Proof.Machine

/-- The state is of a processor that has `CPUID` (R80, R88), in a configuration the document covers (R8). -/
abbrev State.HasCpuid (s : State) : Prop := s.cfg.WellFormed ∧ s.cfg.cpuidImplemented = true

/-- The conditions under which `CPUID` completes: the processor has it, and EAX has been written (R38). -/
abbrev State.Ready (s : State) : Prop := s.HasCpuid ∧ s.eaxWritten = true

/-- The bytes at `pc` and `pc + 1` can be fetched, and are these (R61). -/
abbrev State.Fetches (s : State) (b0 b1 : Byte) : Prop :=
  s.pc < 0xFFFFFFFE#32 ∧ s.code.read s.pc.toNat = some b0 ∧ s.code.read (s.pc.toNat + 1) = some b1

/-- The two bytes of `CPUID` stand at `pc`, below the top of the address space (R61). -/
abbrev State.AtCpuid (s : State) : Prop := s.Fetches 0x0F#8 0xA2#8

/-- The invariant of a run from `base` with configuration `c` and code `m`, its counter at `start` when the run
began: the configuration and the code are those of the launch and well formed (R5, R8, R42), and `pc` has advanced
by two bytes for every `CPUID` completed since, without wrapping (R24, R93). -/
def State.LaunchInv (base start : Nat) (c : Cfg) (m : Memory) (s : State) : Prop :=
  s.cfg = c ∧ c.WellFormed ∧ s.code = m ∧ m.wf = true ∧ s.pc.toNat + 2 * start = base + 2 * s.executions

/-- All 32 bits. -/
def allBits : Word := 0xFFFFFFFF#32

/-- The bits of the four registers that the spec determines for a recognised input: all but the reserved ones
(R6, R94, U2). DESIGN CHOICE, log 29: ECX and EDX of input 3 count as determined also where feature bit 18 is 0. -/
def definedMask (n : Word) : Regs :=
  if n = 1#32 then ⟨0x00FF3FFF#32, 0xFF00FFFF#32, 0#32, 0xFFEFFBFF#32⟩
  else if n = 3#32 then ⟨0#32, 0#32, allBits, allBits⟩
  else if n = 0x80000000#32 then ⟨allBits, 0#32, 0#32, 0#32⟩
  else if n = 0x80000001#32 then ⟨0#32, 0#32, 0#32, 0#32⟩
  else ⟨allBits, allBits, allBits, allBits⟩

/-- The four registers cut down to the bits of a mask. -/
def Regs.masked (m q : Regs) : Regs := ⟨q.eax &&& m.eax, q.ebx &&& m.ebx, q.ecx &&& m.ecx, q.edx &&& m.edx⟩

end Sys2Proof.Machine
end

