-- ==== Sys2Proof/Certificates/Slice0/Obligations.lean ====
section
/-! DEFINITION. The statements for the provers. -/

open Sys2Proof Sys2Proof.Machine

/-! ### Encoding, fetch and step -/

/-- R60, R63, R65, R67: the table's bytes decode to `CPUID`; vectors V2 to V5 and a lone byte are refused. -/
def Obligations.SpecWordsDecode : Prop :=
  decode [0b00001111#8, 0b10100010#8] = .ok (.cpuid, []) ∧
  decode [0x0F#8, 0xA3#8] = .error (.notInTable 0x0F#8 0xA3#8) ∧
  decode [0xA2#8, 0x0F#8] = .error (.notInTable 0xA2#8 0x0F#8) ∧
  decode [0x66#8, 0x0F#8, 0xA2#8] = .error (.notInTable 0x66#8 0x0F#8) ∧
  decode [0xF0#8, 0x0F#8, 0xA2#8] = .error (.notInTable 0xF0#8 0x0F#8) ∧
  decode [0x0F#8] = .error .truncated ∧
  decodeTableWord 16 0x0FA2 = some .cpuid

/-- Decoding and encoding agree in both directions, on any bytes: an instruction and a tail are read exactly from
the instruction's own encoding followed by that tail (R60, R61, R65, R67). -/
def Obligations.DecodeExactlyInvertsEncode : Prop :=
  ∀ (bytes : List Byte) (i : Instr) (rest : List Byte),
    i.WellFormed = true → (decode bytes = .ok (i, rest) ↔ bytes = encode i ++ rest)

/-- The model's step around `exec` (R61, R229, R230): before the end of the run, where the two bytes at `pc` can be
fetched and decode to a well-formed instruction, the step is that instruction's meaning at that state. The step adds
nothing: moving `pc` past the instruction is the meaning's own (R93). -/
def Obligations.StepRunsDecodedInstruction : Prop :=
  ∀ (s : State) (b0 b1 : Byte) (i : Instr) (rest : List Byte),
    s.pc ≠ s.codeEnd → s.Fetches b0 b1 → decode [b0, b1] = .ok (i, rest) → i.WellFormed = true →
    step s = exec i s

/-- R61's refusals and R65's, in a configuration the document covers: at the top of the address space, outside the code
memory, and on bytes that are not `0F A2`. The three clauses exclude each other. -/
def Obligations.FetchRefusals : Prop :=
  ∀ s : State, s.cfg.WellFormed → s.pc ≠ s.codeEnd →
    (0xFFFFFFFE#32 ≤ s.pc → step s = .refused .pcAtTop) ∧
    (s.pc < 0xFFFFFFFE#32 → s.code.read s.pc.toNat = none ∨ s.code.read (s.pc.toNat + 1) = none →
      step s = .refused .fetchOutsideCode) ∧
    (∀ b0 b1, s.Fetches b0 b1 → ¬ (b0 = 0x0F#8 ∧ b1 = 0xA2#8) →
      step s = .refused (.notInOpcodeTable b0 b1))

/-- The outcomes of a step, each exactly where it occurs (R230). The end of a run is the model's refusal `runEnded`
(log 13). The model's own are that an ill-formed configuration is refused before the end of the run, the fetch and #UD
(log 16), and that #UD comes before the fault on an unwritten EAX (log 8). -/
def Obligations.StepOutcomesCharacterised : Prop :=
  ∀ s : State,
    (step s = .refused .illFormedConfig ↔ ¬ s.cfg.WellFormed) ∧
    (step s = .refused .runEnded ↔ s.cfg.WellFormed ∧ s.pc = s.codeEnd) ∧
    ((∃ f, step s = .fault f) ↔
      s.cfg.WellFormed ∧ s.pc ≠ s.codeEnd ∧ s.AtCpuid ∧
      (s.cfg.cpuidImplemented = false ∨ s.eaxWritten = false)) ∧
    ((∃ t, step s = .next t) ↔ s.pc ≠ s.codeEnd ∧ s.AtCpuid ∧ s.Ready) ∧
    (∀ f, step s = .fault f →
      f = if s.cfg.cpuidImplemented = false then .exception .invalidOpcode s.pc else .eaxUnwritten s.pc) ∧
    (∀ t, step s = .next t → exec .cpuid s = .next t ∧ t.pc = s.pc + 2#32)

/-- R230: the step that R230 counts, in its four outcomes, is the step the host sees, of which the end of a run is the
refusal `runEnded` (log 13); a run that has ended, been refused or faulted stays so at any greater number of steps
("neither is cleared by any later step"). -/
def Obligations.EndedRunsStayEnded : Prop :=
  (∀ s : State,
    (stepOutcome s = .final ↔ step s = .refused .runEnded) ∧
    (∀ t, stepOutcome s = .next t ↔ step s = .next t) ∧
    (∀ f, stepOutcome s = .fault f ↔ step s = .fault f) ∧
    (∀ r, r ≠ .runEnded → (stepOutcome s = .refusal r ↔ step s = .refused r))) ∧
  ∀ (n k : Nat) (s : State), (∀ t, run n s ≠ .next t) → run (n + k) s = run n s

/-- R8, and R173 for the format it gives the brand string of every admitted configuration (log 21, log 31): a configuration the document does not cover
is refused before a run, and no step is taken from a state that holds
one, wherever its `pc` is (for the step see log 16). -/
def Obligations.IllFormedConfigurationNeverRuns : Prop :=
  (∀ l : Launch, (∃ s, State.launch l = .ok s) ↔ l.cfg.WellFormed) ∧
  (∀ (l : Launch) (r : Refusal), State.launch l = .error r → r = .illFormedConfig) ∧
  (∀ (n : Nat) (s : State), ¬ s.cfg.WellFormed → run (n + 1) s = .refusal .illFormedConfig)

/-- Placing `CPUID` by its table number makes the next step run it, and leaves the registers, `pc`, the processor, the
flags, the draw counter and every other byte of the code memory as they were. The placing, which moves `CODE_END` where the
run had ended at `pc`, is the model's own (log 22), and so is its reading of R71's number with the high byte at `pc`
(log 10). -/
def Obligations.PlacedInstructionRunsNext : Prop :=
  ∀ s : State, s.pc < 0xFFFFFFFE#32 →
    step (s.withFetchWord 16 0x0FA2) = exec .cpuid (s.withFetchWord 16 0x0FA2) ∧
    (s.withFetchWord 16 0x0FA2).regs = s.regs ∧ (s.withFetchWord 16 0x0FA2).eaxWritten = s.eaxWritten ∧
    (s.withFetchWord 16 0x0FA2).pc = s.pc ∧ (s.withFetchWord 16 0x0FA2).executions = s.executions ∧
    (s.withFetchWord 16 0x0FA2).cfg = s.cfg ∧ (s.withFetchWord 16 0x0FA2).eflags = s.eflags ∧
    (∀ a, a ≠ s.pc.toNat → a ≠ s.pc.toNat + 1 →
      (s.withFetchWord 16 0x0FA2).code.read a = s.code.read a)

/-! ### The instruction -/

/-- R80, the master rule, over every well-formed configuration and every state whose EAX has been written (R38): #UD with
nothing done where the processor lacks the instruction; otherwise the four registers receive what the classification of
EAX selects, `pc` moves on by 2, the draws are those of this execution, and nothing else changes. The model's own are the
counter that numbers the draws (log 7), `pc + 2` taken modulo 2^32 at FFFFFFFEH and above, where no step comes (log 9),
and that the fault carries `pc` (R206, log 12). -/
def Obligations.CpuidMasterRule : Prop :=
  ∀ s : State, s.cfg.WellFormed → s.eaxWritten = true →
    (s.cfg.cpuidImplemented = false → exec .cpuid s = .fault (.exception .invalidOpcode s.pc)) ∧
    (s.cfg.cpuidImplemented = true →
      ∃ q : Regs,
        exec .cpuid s =
          .next { s with regs := q, pc := s.pc + 2#32, executions := s.executions + 1 } ∧
        (match classify s.cfg s.regs.eax with
          | .basic n => n = s.regs.eax ∧ info s.cfg (Config.draws s.executions) n = some q
          | .extended n => n = s.regs.eax ∧ info s.cfg (Config.draws s.executions) n = some q
          | .outOfRange =>
            match s.cfg.oorPolicy with
            | .highestBasic => info s.cfg (Config.draws s.executions) s.cfg.maxBasic = some q
            | .draw => q = (Config.draws s.executions).outOfRange))

/-- `CPUID` completes in every state of a processor that has it and whose EAX has been written (R38), whatever the input
(R88, R200): no register value, flag, address or memory content makes it stop. At `pc` FFFFFFFEH and above, where R24 has
a step refused, that it completes with `pc + 2` modulo 2^32 is the model's own (log 9). -/
def Obligations.CpuidCompletesOnEveryInput : Prop :=
  ∀ s : State, s.Ready → ∃ t, exec .cpuid s = .next t ∧ t.pc = s.pc + 2#32

/-- The exceptions of `CPUID` (R88, R201, R206): #UD at the instruction's own `pc`, exactly on a processor without it. That
an ill-formed configuration is refused before #UD (log 16), and the form of the fault (log 12), are the model's own. -/
def Obligations.InvalidOpcodeExactlyWithoutCpuid : Prop :=
  ∀ (s : State) (x : ExceptionName) (p : Word),
    exec .cpuid s = .fault (.exception x p) ↔
      s.cfg.WellFormed ∧ s.cfg.cpuidImplemented = false ∧ x = .invalidOpcode ∧ p = s.pc

/-- R230(c) and R38: `CPUID` faults, other than with an exception, exactly where nothing has written the EAX it reads. The
model's own are that an ill-formed configuration is refused before it (log 16), that #UD comes before it, as R80's order is
read, and that the fault carries the instruction's `pc` (log 8). -/
def Obligations.UnwrittenEaxFaults : Prop :=
  ∀ (s : State) (f : Fault), (∀ x p, f ≠ .exception x p) →
    (exec .cpuid s = .fault f ↔ s.HasCpuid ∧ s.eaxWritten = false ∧ f = .eaxUnwritten s.pc)

/-- R8's bounds, as numbers, and the ASCII bytes and null 48th byte that R173 gives the brand string of every admitted
configuration with extended information. Outside them, and nowhere else, `CPUID` is refused; that its meaning looks at them
again, and before #UD (log 16), that a string without that format is refused (log 21), and that ASCII means below 80H
(log 31), are the model's own. -/
def Obligations.RefusedExactlyWhenConfigIllFormed : Prop :=
  ∀ (s : State) (r : Refusal),
    exec .cpuid s = .refused r ↔
      r = .illFormedConfig ∧
      ¬ ((s.cfg.cpuidImplemented = true → 1 ≤ s.cfg.maxBasic.toNat ∧ s.cfg.maxBasic.toNat ≤ 3) ∧
        (s.cfg.extImplemented = true →
          s.cfg.cpuidImplemented = true ∧ 2 ^ 31 ≤ s.cfg.maxExt.toNat ∧ s.cfg.maxExt.toNat ≤ 2 ^ 31 + 4) ∧
        (2 ≤ s.cfg.maxBasic.toNat → s.cfg.l2Eax.extractLsb' 0 8 = 1#8) ∧
        (s.cfg.extImplemented = true →
          (∀ i : Fin 48, i.val < 47 →
            ((s.cfg.brandWords[i.val / 4]'(by have := i.isLt; omega)).extractLsb' (8 * (i.val % 4)) 8).toNat < 128) ∧
          s.cfg.brandWords[11].extractLsb' 24 8 = 0#8))

/-- The frame of `CPUID` (R27, R81, R87, R89): no register but its implicit destinations (which are all four, R62), EAX
written as it was (it had to be, R38), no flag, no identification value, no byte of memory, `CODE_END` as it was; `pc` may change. -/
def Obligations.CpuidFrame : Prop :=
  ∀ s t : State, exec .cpuid s = .next t →
    (∀ r, r ∉ implicitDestinations .cpuid → Regs.get t.regs r = Regs.get s.regs r) ∧
    t.eaxWritten = s.eaxWritten ∧ t.eflags = s.eflags ∧ t.cfg = s.cfg ∧ t.codeEnd = s.codeEnd ∧
    ∀ a, t.code.read a = s.code.read a

/-- `CPUID` "affects no flag" (R27, R87): EFLAGS, of which the state holds the named bits (log 5), is as it was. -/
def Obligations.CpuidAffectsNoFlag : Prop :=
  ∀ s : State, s.Ready → ∃ t, exec .cpuid s = .next t ∧ t.eflags = s.eflags

/-- `CPUID` reads EAX and no other register, flag or memory location (R22, R81, R89, R90, R95): two states of the same
processor with the same EAX give the same four results, whatever else they hold, for the same draws (the same value of the
model's counter, log 7). -/
def Obligations.ResultsDependOnEaxAlone : Prop :=
  ∀ s s' : State, s.Ready → s'.Ready → s'.cfg = s.cfg → s'.regs.eax = s.regs.eax → s'.executions = s.executions →
    ∃ t t', exec .cpuid s = .next t ∧ exec .cpuid s' = .next t' ∧ t'.regs = t.regs

/-- `classify` (R83), the comparisons unsigned, which is the spec's own choice of reading (D17). -/
def Obligations.InputClassification : Prop :=
  ∀ (c : Cfg) (n : Word),
    (classify c n = .basic n ↔ n.toNat ≤ c.maxBasic.toNat) ∧
    (classify c n = .extended n ↔
      ¬ n.toNat ≤ c.maxBasic.toNat ∧ c.extImplemented = true ∧
      2 ^ 31 ≤ n.toNat ∧ n.toNat ≤ c.maxExt.toNat) ∧
    (classify c n = .outOfRange ↔
      ¬ n.toNat ≤ c.maxBasic.toNat ∧
      ¬ (c.extImplemented = true ∧ 2 ^ 31 ≤ n.toNat ∧ n.toNat ≤ c.maxExt.toNat))

/-- The corner cases R80 names: exactly `MAX_BASIC` and exactly `MAX_EXT` are recognised, one above each is not. -/
def Obligations.ClassificationBoundaries : Prop :=
  ∀ c : Cfg, c.WellFormed → c.cpuidImplemented = true →
    classify c c.maxBasic = .basic c.maxBasic ∧
    classify c (c.maxBasic + 1#32) = .outOfRange ∧
    (c.extImplemented = true →
      classify c c.maxExt = .extended c.maxExt ∧ classify c (c.maxExt + 1#32) = .outOfRange)

/-- R186: inputs 80000005H to FFFFFFFFH are out of range on every processor of the source. -/
def Obligations.HighInputsOutOfRange : Prop :=
  ∀ (c : Cfg) (n : Word), c.WellFormed → c.cpuidImplemented = true → 0x80000005#32 ≤ n →
    classify c n = .outOfRange

/-- R185: on every family of R84's table other than Pentium 4 and Intel Xeon that has the instruction, inputs
80000000H to 80000004H are out of range. -/
def Obligations.ExtendedInputsOutOfRangeOnOlderFamilies : Prop :=
  ∀ (c : Cfg) (f : ProcessorFamily) (n : Word),
    c.IsOf f → c.cpuidImplemented = true → f ≠ .pentium4 → f ≠ .intelXeon →
    0x80000000#32 ≤ n → n ≤ 0x80000004#32 → classify c n = .outOfRange

/-- R86: an out-of-range input returns the information of the highest basic input, or four draws, by the policy. -/
def Obligations.OutOfRangeInput : Prop :=
  ∀ s : State, s.Ready → classify s.cfg s.regs.eax = .outOfRange →
    ∃ t, exec .cpuid s = .next t ∧
      (s.cfg.oorPolicy = .highestBasic →
        info s.cfg (Config.draws s.executions) s.cfg.maxBasic = some t.regs) ∧
      (s.cfg.oorPolicy = .draw → t.regs = (Config.draws s.executions).outOfRange)

/-- Under `highest_basic` an out-of-range input does all that input `MAX_BASIC` does (R86). That the reserved fields agree
too is the model's own (log 7): the two executions start at the same counter, and so draw the same, while R14 lets any two
executions draw independently. -/
def Obligations.HighestBasicPolicyActsAsMaxBasic : Prop :=
  ∀ s : State, s.Ready → s.cfg.oorPolicy = .highestBasic → classify s.cfg s.regs.eax = .outOfRange →
    ∃ t, exec .cpuid s = .next t ∧ exec .cpuid (loadEax s.cfg.maxBasic s) = .next t

/-- The source's Pentium 4 examples (R86, R157, R186; E5, E6, E8): on `P4FIRST`, whatever its open fields (the brand
string in R173's format), every input
that is neither 0, 1 nor in the extended range returns the information of input 2. -/
def Obligations.P4FirstOtherInputsReturnInputTwo : Prop :=
  ∀ (s : State) (o : P4Open), s.cfg = Cfg.p4first o → s.cfg.BrandFormat → s.eaxWritten = true →
    s.regs.eax ≠ 0#32 → s.regs.eax ≠ 1#32 → ¬ (0x80000000#32 ≤ s.regs.eax ∧ s.regs.eax ≤ 0x80000004#32) →
    ∃ t, exec .cpuid s = .next t ∧ t.regs = ⟨0x665B5001#32, 0#32, 0#32, 0x007A7000#32⟩

/-! ### The information returned -/

/-- R100: input 0. -/
def Obligations.InputZeroReturnsMaxBasicAndVendor : Prop :=
  ∀ s : State, s.Ready → s.regs.eax = 0#32 →
    ∃ t, exec .cpuid s = .next t ∧
      t.regs.eax = s.cfg.maxBasic ∧ t.regs.ebx = s.cfg.vendorEbx ∧
      t.regs.ecx = s.cfg.vendorEcx ∧ t.regs.edx = s.cfg.vendorEdx

/-- R101: on an Intel processor the string returned for input 0, read in the order EBX, EDX, ECX with the low byte
first, is "GenuineIntel". -/
def Obligations.VendorStringIsGenuineIntel : Prop :=
  ∀ s : State, s.Ready → s.regs.eax = 0#32 →
    s.cfg.vendorEbx = 0x756E6547#32 → s.cfg.vendorEdx = 0x49656E69#32 → s.cfg.vendorEcx = 0x6C65746E#32 →
    ∃ t, exec .cpuid s = .next t ∧
      (vendorString t.regs).map (fun b => Char.ofNat b.toNat) =
        ['G', 'e', 'n', 'u', 'i', 'n', 'e', 'I', 'n', 't', 'e', 'l']

/-- R104: the layout of EAX for input 1, the reserved fields being this execution's draws. -/
def Obligations.VersionInformationLayout : Prop :=
  ∀ s : State, s.Ready → s.regs.eax = 1#32 →
    ∃ t, exec .cpuid s = .next t ∧
      t.regs.eax.extractLsb' 0 4 = s.cfg.stepping ∧
      t.regs.eax.extractLsb' 4 4 = s.cfg.model ∧
      t.regs.eax.extractLsb' 8 4 = s.cfg.family ∧
      t.regs.eax.extractLsb' 12 2 = s.cfg.ptype ∧
      t.regs.eax.extractLsb' 14 2 = (Config.draws s.executions).versionMid ∧
      t.regs.eax.extractLsb' 16 4 = s.cfg.extModel ∧
      t.regs.eax.extractLsb' 20 4 = s.cfg.extFamily ∧
      t.regs.eax.extractLsb' 24 8 = (Config.draws s.executions).versionHigh

/-- R113 and R118: the layout of EBX for input 1, and ECX a draw. -/
def Obligations.BrandLineSizeApicLayout : Prop :=
  ∀ s : State, s.Ready → s.regs.eax = 1#32 →
    ∃ t, exec .cpuid s = .next t ∧
      t.regs.ebx.extractLsb' 0 8 = s.cfg.brandIndex ∧
      t.regs.ebx.extractLsb' 8 8 = s.cfg.clflushLine ∧
      t.regs.ebx.extractLsb' 16 8 = (Config.draws s.executions).miscReserved ∧
      t.regs.ebx.extractLsb' 24 8 = s.cfg.apicId ∧
      t.regs.ecx = (Config.draws s.executions).leaf1Ecx

/-- R119's `features()`: every bit of EDX for input 1; bits 10 and 20 are draws (R130, R140). -/
def Obligations.FeatureFlagBits : Prop :=
  ∀ s : State, s.Ready → s.regs.eax = 1#32 →
    ∃ t, exec .cpuid s = .next t ∧
      ∀ i, i < 32 →
        t.regs.edx.getLsbD i =
          if i = 10 then (Config.draws s.executions).feature10.getLsbD 0
          else if i = 20 then (Config.draws s.executions).feature20.getLsbD 0
          else s.cfg.features.getLsbD i

/-- What software reads of a named feature after input 1 is the processor's flag for it, for all 25 of them, whatever
the draws (R119 to R146). -/
def Obligations.NamedFeaturesReportConfiguration : Prop :=
  ∀ s : State, s.Ready → s.regs.eax = 1#32 →
    ∃ t, exec .cpuid s = .next t ∧
      ∀ f : Feature, supports t.regs.edx f = bitOf s.cfg.features f.bit

/-- R152 and R153: input 2, with the repeat count 1 of every configuration the model admits. That AL is the count also
where bit 31 of EAX is 1 is the model's own (log 30). -/
def Obligations.InputTwoReturnsCacheInformation : Prop :=
  ∀ s : State, s.Ready → 2#32 ≤ s.cfg.maxBasic → s.regs.eax = 2#32 →
    ∃ t, exec .cpuid s = .next t ∧
      t.regs = ⟨s.cfg.l2Eax, s.cfg.l2Ebx, s.cfg.l2Ecx, s.cfg.l2Edx⟩ ∧ repeatCount t.regs = 1

/-- R158: input 3 where `MAX_BASIC` is 3; where it is below 3 the input is out of range. That the serial number is returned
also where feature bit 18 is 0 is the model's own (log 29). -/
def Obligations.InputThreeReturnsSerialNumber : Prop :=
  ∀ s : State, s.Ready → s.regs.eax = 3#32 →
    (s.cfg.maxBasic = 3#32 →
      ∃ t, exec .cpuid s = .next t ∧
        t.regs.eax = (Config.draws s.executions).serialEax ∧
        t.regs.ebx = (Config.draws s.executions).serialEbx ∧
        t.regs.ecx = s.cfg.psnLo ∧ t.regs.edx = s.cfg.psnHi) ∧
    (s.cfg.maxBasic < 3#32 → classify s.cfg s.regs.eax = .outOfRange)

/-- R170: input 80000000H; bit 31 of the returned EAX is 1, the other three registers are draws. -/
def Obligations.ExtendedMaximumReturned : Prop :=
  ∀ s : State, s.Ready → s.cfg.extImplemented = true → s.regs.eax = 0x80000000#32 →
    ∃ t, exec .cpuid s = .next t ∧
      t.regs.eax = s.cfg.maxExt ∧ t.regs.eax.getLsbD 31 = true ∧
      t.regs.ebx = (Config.draws s.executions).extMaxEbx ∧
      t.regs.ecx = (Config.draws s.executions).extMaxEcx ∧
      t.regs.edx = (Config.draws s.executions).extMaxEdx

/-- R171: input 80000001H is recognised, completes normally and returns four draws; `pc` moves on by 2 (R93), modulo 2^32
at FFFFFFFEH and above, where no step comes (log 9). -/
def Obligations.ExtendedSignatureIsFourDraws : Prop :=
  ∀ s : State, s.Ready → s.cfg.extImplemented = true → 0x80000001#32 ≤ s.cfg.maxExt →
    s.regs.eax = 0x80000001#32 →
    classify s.cfg s.regs.eax = .extended 0x80000001#32 ∧
    ∃ t, exec .cpuid s = .next t ∧ t.regs = (Config.draws s.executions).extSignature ∧ t.pc = s.pc + 2#32

/-- R172: inputs 80000002H to 80000004H return the brand string's words four at a time; no field is a draw. -/
def Obligations.BrandStringWords : Prop :=
  ∀ (s : State) (k : Fin 3), s.Ready → s.cfg.extImplemented = true →
    s.regs.eax = 0x80000002#32 + BitVec.ofNat 32 k.val → s.regs.eax ≤ s.cfg.maxExt →
    ∃ t, exec .cpuid s = .next t ∧
      t.regs.eax = s.cfg.brandWords[4 * k.val] ∧
      t.regs.ebx = s.cfg.brandWords[4 * k.val + 1] ∧
      t.regs.ecx = s.cfg.brandWords[4 * k.val + 2] ∧
      t.regs.edx = s.cfg.brandWords[4 * k.val + 3]

/-- R173 on the machine: the last input of the brand string returns the null 48th byte in EDX[31:24], by the placement of
D12 (log 21). -/
def Obligations.BrandStringEndsInNull : Prop :=
  ∀ s : State, s.Ready → s.cfg.extImplemented = true → s.cfg.maxExt = 0x80000004#32 →
    s.regs.eax = 0x80000004#32 →
    ∃ t, exec .cpuid s = .next t ∧ t.regs.edx.extractLsb' 24 8 = 0#8

/-- R94: two executions with the same configuration and the same recognised input return the same values in every bit
the spec determines, whatever else the two states hold and whatever is drawn (out-of-range inputs: see
`HighestBasicPolicyActsAsMaxBasic`). That ECX and EDX of input 3 are among those bits also where feature bit 18 is 0, for
which R158 and U16 state no result, is the model's own (log 29). -/
def Obligations.DefinedBitsAreRepeatable : Prop :=
  ∀ s s' t t' : State,
    exec .cpuid s = .next t → exec .cpuid s' = .next t' →
    s.cfg = s'.cfg → s.regs.eax = s'.regs.eax → classify s.cfg s.regs.eax ≠ .outOfRange →
    Regs.masked (definedMask s.regs.eax) t.regs = Regs.masked (definedMask s.regs.eax) t'.regs

/-- R112: `P4FIRST`, whatever its open fields (the brand string in R173's format), returns model 0000B, family 1111B
and type 00B for input 1, so that the extended family field is valid and its family number ends in FH (R110). -/
def Obligations.P4FirstVersionInformation : Prop :=
  ∀ (s : State) (o : P4Open), s.cfg = Cfg.p4first o → s.cfg.BrandFormat → s.eaxWritten = true →
    s.regs.eax = 1#32 →
    ∃ t, exec .cpuid s = .next t ∧
      t.regs.eax.extractLsb' 4 10 = 0b0011110000#10 ∧
      t.regs.eax.extractLsb' 0 14 = 0b00111100000000#14 ||| o.stepping.setWidth 14 ∧
      processorType (ptypeField t.regs.eax) = .originalOem ∧
      familyNumber t.regs.eax = o.extFamily ++ 0xF#4

/-! ### Reading the results -/

/-- R110: family and model numbers from EAX for input 1; an extended number is two digits of which the low one is FH. -/
def Obligations.FamilyAndModelNumbers : Prop :=
  ∀ eax : Word,
    (eax.extractLsb' 8 4 = 0xF#4 →
      (familyNumber eax).toNat = 16 * (eax.extractLsb' 20 4).toNat + 15 ∧
      0x0F ≤ (familyNumber eax).toNat) ∧
    (eax.extractLsb' 8 4 ≠ 0xF#4 → (familyNumber eax).toNat = (eax.extractLsb' 8 4).toNat) ∧
    (eax.extractLsb' 4 4 = 0xF#4 →
      (modelNumber eax).toNat = 16 * (eax.extractLsb' 16 4).toNat + 15 ∧
      0x0F ≤ (modelNumber eax).toNat) ∧
    (eax.extractLsb' 4 4 ≠ 0xF#4 → (modelNumber eax).toNat = (eax.extractLsb' 4 4).toNat)

/-- R115 on the machine: the line size read after input 1 is eight times the configured value, at most 2040 bytes. -/
def Obligations.ClflushLineSizeInBytes : Prop :=
  ∀ s : State, s.Ready → s.regs.eax = 1#32 →
    ∃ t, exec .cpuid s = .next t ∧
      clflushLineBytes t.regs.ebx = 8 * s.cfg.clflushLine.toNat ∧ clflushLineBytes t.regs.ebx ≤ 2040

/-- R135: CMOV is reported by bit 15; FCOMI and FCMOV are supported exactly when bits 15 and 0 are both 1. -/
def Obligations.FcomiAndFcmovNeedCmovAndFpu : Prop :=
  ∀ edx : Word,
    (supportsInstr edx .cmovcc = edx.getLsbD 15) ∧
    (supportsInstr edx .fcomi = true ↔ edx.getLsbD 15 = true ∧ edx.getLsbD 0 = true) ∧
    (supportsInstr edx .fcmov = true ↔ edx.getLsbD 15 = true ∧ edx.getLsbD 0 = true)

/-- R119: the rows of the feature table. Each feature is read from the bit whose number R120 to R146 give it, that bit has
its feature and no other, and the bits without a name are 10 and 20, reserved, and 27 to 31, lost. -/
def Obligations.FeatureTableRows : Prop :=
  (∀ (f : Feature) (edx : Word), supports edx f = edx.getLsbD
    (match f with
      | .fpu => 0 | .vme => 1 | .de => 2 | .pse => 3 | .tsc => 4 | .msr => 5 | .pae => 6 | .mce => 7
      | .cx8 => 8 | .apic => 9 | .sep => 11 | .mtrr => 12 | .pge => 13 | .mca => 14 | .cmov => 15
      | .pat => 16 | .pse36 => 17 | .psn => 18 | .clfsh => 19 | .ds => 21 | .acpi => 22 | .mmx => 23
      | .fxsr => 24 | .sse => 25 | .sse2 => 26)) ∧
  (∀ f : Feature, ∃ h : f.bit < 32, featureBit ⟨f.bit, h⟩ = .named f) ∧
  (∀ i : Fin 32, featureBit i = .reserved ↔ i.val = 10 ∨ i.val = 20) ∧
  (∀ i : Fin 32, featureBit i = .lost ↔ 27 ≤ i.val)

/-- R154 and R155: the descriptors of input-2 registers: at most 15; a register with bit 31 set contributes none; byte 0
of EAX is never one. -/
def Obligations.DescriptorsOfValidRegisters : Prop :=
  ∀ (q : Regs) (b : Byte),
    (descriptors q).length ≤ 15 ∧
    (b ∈ descriptors q ↔
      (q.eax.getLsbD 31 = false ∧
        (b = q.eax.extractLsb' 8 8 ∨ b = q.eax.extractLsb' 16 8 ∨ b = q.eax.extractLsb' 24 8)) ∨
      (q.ebx.getLsbD 31 = false ∧ ∃ k : Fin 4, b = q.ebx.extractLsb' (8 * k.val) 8) ∨
      (q.ecx.getLsbD 31 = false ∧ ∃ k : Fin 4, b = q.ecx.extractLsb' (8 * k.val) 8) ∨
      (q.edx.getLsbD 31 = false ∧ ∃ k : Fin 4, b = q.edx.extractLsb' (8 * k.val) 8))

/-- R157 with R156: what `P4FIRST`, whatever its open fields (the brand string in R173's format), reports of its caches and TLBs for input 2, read in full.
The order of the list is the model's (log 23): R155 gives descriptors no order. -/
def Obligations.P4FirstCacheReading : Prop :=
  ∀ (s : State) (o : P4Open), s.cfg = Cfg.p4first o → s.cfg.BrandFormat → s.eaxWritten = true →
    s.regs.eax = 2#32 →
    ∃ t, exec .cpuid s = .next t ∧ repeatCount t.regs = 1 ∧
      (descriptors t.regs).filterMap descriptorMeaning =
        [.tlb .instruction 64 [.kb4, .mb2OrMb4], .tlb .data 64 [.kb4, .mb4], .cache 1 .data 8 4 64 false,
         .null, .null, .null, .null, .null, .null, .null, .null,
         .null, .cache 1 .code 12 4 64 false, .cache 2 .unspecified 256 8 64 true, .null]

/-- R108, R114 and R183 on the machine: what software reads after input 1 of the processor type and the brand index, over
all their encodings. -/
def Obligations.TypeAndBrandIndexReadings : Prop :=
  ∀ s : State, s.Ready → s.regs.eax = 1#32 →
    ∃ t, exec .cpuid s = .next t ∧
      brandIndexField t.regs.ebx = s.cfg.brandIndex ∧
      processorType (ptypeField t.regs.eax) =
        (match s.cfg.ptype.toNat with
          | 0 => .originalOem
          | 1 => .overDrive
          | 2 => .dual
          | _ => .intelReserved) ∧
      brandIndexEntry (brandIndexField t.regs.ebx) =
        (match s.cfg.brandIndex.toNat with
          | 0 => .notSupported
          | 1 => .celeron
          | 2 => .pentiumIII
          | 3 => .pentiumIIIXeon
          | 8 => .pentium4
          | _ => .reserved)

/-- R177 on a configuration with extended information: the detection procedure answers that extended functions are
supported, and the brand string exactly where `MAX_EXT` reaches 80000004H. -/
def Obligations.BrandStringDetection : Prop :=
  ∀ s : State, s.HasCpuid → s.cfg.extImplemented = true →
    ∃ d, detectBrandString s = some d ∧ d.extendedSupported = true ∧
      (d.brandStringSupported = true ↔ s.cfg.maxExt = 0x80000004#32)

/-- R174 and R178: the three executions read the 48 bytes of the brand string, byte `i` being byte `i mod 4` of word
`i div 4` (the placement is the spec's decision D12). -/
def Obligations.BrandStringRead : Prop :=
  ∀ s : State, s.HasCpuid → s.cfg.extImplemented = true → s.cfg.maxExt = 0x80000004#32 →
    ∃ bytes, readBrandString s = some bytes ∧ bytes.length = 48 ∧
      ∀ i : Fin 48, bytes[i.val]? =
        some (byteOf (s.cfg.brandWords[i.val / 4]'(by have := i.isLt; omega)) (i.val % 4))

/-- R173 and R176: the text read is at most 47 characters long, all of them ASCII, and is followed by a null. It rests on the placement of
R174, the spec's decision D12, and on the model refusing a string without
its format, ASCII meaning below 80H (log 21, log 31). -/
def Obligations.BrandTextFitsFortySevenCharacters : Prop :=
  ∀ s : State, s.HasCpuid → s.cfg.extImplemented = true → s.cfg.maxExt = 0x80000004#32 →
    ∃ bytes, readBrandString s = some bytes ∧ (brandText bytes).length ≤ 47 ∧
      (∀ b ∈ brandText bytes, b.toNat < 128) ∧ bytes[(brandText bytes).length]? = some 0#8

/-- The procedure that reads feature flags answers exactly on Intel's vendor string, and then every named feature reads as
the processor's flag for it (R119). R222 and R223 say what software should do first; that the procedure answers nothing
for another vendor is the model's reading of them (log 23). -/
def Obligations.FeatureFlagsReadOnIntelOnly : Prop :=
  ∀ s : State, s.HasCpuid →
    (s.cfg.vendorEbx = 0x756E6547#32 ∧ s.cfg.vendorEdx = 0x49656E69#32 ∧ s.cfg.vendorEcx = 0x6C65746E#32 →
      ∃ v, readFeatureFlags s = some v ∧ ∀ f : Feature, supports v f = bitOf s.cfg.features f.bit) ∧
    (¬ (s.cfg.vendorEbx = 0x756E6547#32 ∧ s.cfg.vendorEdx = 0x49656E69#32 ∧ s.cfg.vendorEcx = 0x6C65746E#32) →
      readFeatureFlags s = none)

/-- R181 on a configuration with extended information: the brand string comes first, then the brand index, then the
signature table. That the brand index counts as available where it is not 0 is the model's reading (log 23). -/
def Obligations.IdentificationPriority : Prop :=
  ∀ s : State, s.HasCpuid → s.cfg.extImplemented = true →
    identificationTechnique s =
      if s.cfg.maxExt = 0x80000004#32 then some .brandString
      else if s.cfg.brandIndex ≠ 0#8 then some .brandIndexTable
      else some .signatureTable

/-- R25 and R92: software can set and clear the ID flag exactly where the processor has `CPUID`. For a processor without
it that the flag keeps its value is the model's (log 6). -/
def Obligations.IdFlagTestsPresence : Prop :=
  ∀ s : State, canSetAndClearIdFlag s = s.cfg.cpuidImplemented

/-! ### Configurations, reset, invariants -/

/-- R84, R102 and R170: what input 0 and input 80000000H return in EAX on a processor of each family of the table. -/
def Obligations.HighestInputsByFamily : Prop :=
  ∀ (s : State) (f : ProcessorFamily), s.cfg.WellFormed → s.cfg.IsOf f → f ≠ .earlierIntel486 →
    (∃ t, exec .cpuid (loadEax 0#32 s) = .next t ∧
      t.regs.eax =
        (match f with
          | .earlierIntel486 => 0#32
          | .laterIntel486OrPentium => 1#32
          | .pentiumProPentiumIIOrCeleron => 2#32
          | .pentiumIII => 3#32
          | .pentium4 => 2#32
          | .intelXeon => 2#32)) ∧
    (f = .pentium4 ∨ f = .intelXeon →
      ∃ t, exec .cpuid (loadEax 0x80000000#32 s) = .next t ∧ t.regs.eax = 0x80000004#32)

/-- `P4FIRST` is of the Pentium 4 row whatever its open fields (R7, R84), and well formed (R8) "subject only to rule R173"
(R184): exactly where the first 47 bytes of its brand string are ASCII (below 80H, log 31) and the 48th is null. -/
def Obligations.P4FirstIsCovered : Prop :=
  ∀ o : P4Open, (Cfg.p4first o).IsOf .pentium4 ∧
    (Cfg.p4first o).oorPolicy = ProcessorFamily.oorPolicy .pentium4 ∧
    ((Cfg.p4first o).WellFormed ↔
      (∀ i : Fin 48, i.val < 47 → ((Cfg.p4first o).brandByte i).toNat < 128) ∧ (Cfg.p4first o).brandByte 47 = 0#8)

/-- The state after reset. The spec gives no reset value (R37); every value here is the model's own: the registers are
zero (log 3) and EAX counts as written (log 8), `pc` is zero (log 4), the flags are clear (log 5),
the processor is a `P4FIRST` (log 1) with an empty brand string (log 2), nothing is launched (log 13, 14). -/
def Obligations.ResetState : Prop :=
  State.reset.regs = ⟨0#32, 0#32, 0#32, 0#32⟩ ∧ State.reset.eaxWritten = true ∧ State.reset.pc = 0#32 ∧
  State.reset.eflags = ⟨false, false, false⟩ ∧
  (∃ o, State.reset.cfg = Cfg.p4first o ∧ o.brandWords = Vector.replicate 12 0#32) ∧
  (∀ a, State.reset.code.read a = none) ∧
  step State.reset = .refused .runEnded

/-- The launch invariant holds at reset, from the model's own `pc` of 0 (log 4), and at every launch (R38,
R229), which R8 has begin only with a well-formed configuration, whatever the counter starts at: the code is the launch's
bytes from `CODE_BASE`, `pc` is `CODE_BASE`, and `CODE_END` the address past the bytes (modulo 2^32, log 28). -/
def Obligations.LaunchEstablishesInvariant : Prop :=
  State.reset.LaunchInv 0 State.reset.executions State.reset.cfg [] ∧
  ∀ (l : Launch) (s : State), State.launch l = .ok s →
    s.LaunchInv l.codeBase.toNat s.executions l.cfg (Memory.writeBytes [] l.codeBase.toNat l.code) ∧
    s.pc = l.codeBase ∧ s.codeEnd = l.codeBase + BitVec.ofNat 32 l.code.length

/-- What a launch loads (R38, R42, R229): the code memory holds the launch's bytes from `CODE_BASE` on, and nothing else; the
configuration is the caller's, and EAX too where the caller supplies it. The model's own are that the caller supplies EBX,
ECX, EDX and the flags as well (log 22), that EAX counts as written exactly where supplied (log 8), and that bytes past
FFFFFFFFH are dropped (log 28). -/
def Obligations.LaunchLoadsWhatItIsGiven : Prop :=
  ∀ (l : Launch) (s : State), State.launch l = .ok s →
    (∀ a, s.code.read a =
      if l.codeBase.toNat ≤ a ∧ a < l.codeBase.toNat + l.code.length ∧ a < 2 ^ 32 then
        l.code[a - l.codeBase.toNat]?
      else none) ∧
    s.cfg = l.cfg ∧ s.eflags = l.eflags ∧
    s.regs.ebx = l.ebx ∧ s.regs.ecx = l.ecx ∧ s.regs.edx = l.edx ∧
    (∀ v, l.eax = some v → s.regs.eax = v ∧ s.eaxWritten = true) ∧
    (l.eax = none → s.eaxWritten = false)

/-- Every step keeps the launch invariant: the configuration and the code are those of the launch, in their canonical
forms (R5, R32, R42, R47, R89), and `pc` stands two bytes past `base` for each `CPUID` completed since the run began,
never wrapping (R24, R93). -/
def Obligations.StepKeepsLaunchInvariant : Prop :=
  ∀ (base start : Nat) (c : Cfg) (m : Memory) (s t : State),
    s.LaunchInv base start c m → step s = .next t → t.LaunchInv base start c m
end

