-- ==== Sys2Proof/Laws/State.lean ====
section
/-! SUPPORT. What each update of the state does to each field. -/

namespace Sys2Proof.Machine

variable (q : Regs) (s : State) (n v : Word) (b : Bool) (bytes : List Byte)

@[simp] theorem completeWith_regs : (completeWith q s).regs = q := rfl
@[simp] theorem completeWith_eaxWritten : (completeWith q s).eaxWritten = true := rfl
@[simp] theorem completeWith_pc : (completeWith q s).pc = s.pc + 2#32 := rfl
@[simp] theorem completeWith_eflags : (completeWith q s).eflags = s.eflags := rfl
@[simp] theorem completeWith_cfg : (completeWith q s).cfg = s.cfg := rfl
@[simp] theorem completeWith_code : (completeWith q s).code = s.code := rfl
@[simp] theorem completeWith_codeEnd : (completeWith q s).codeEnd = s.codeEnd := rfl
@[simp] theorem completeWith_executions : (completeWith q s).executions = s.executions + 1 := rfl

@[simp] theorem loadEax_eax : (loadEax n s).regs.eax = n := rfl
@[simp] theorem loadEax_ebx : (loadEax n s).regs.ebx = s.regs.ebx := rfl
@[simp] theorem loadEax_ecx : (loadEax n s).regs.ecx = s.regs.ecx := rfl
@[simp] theorem loadEax_edx : (loadEax n s).regs.edx = s.regs.edx := rfl
@[simp] theorem loadEax_eaxWritten : (loadEax n s).eaxWritten = true := rfl
@[simp] theorem loadEax_pc : (loadEax n s).pc = s.pc := rfl
@[simp] theorem loadEax_eflags : (loadEax n s).eflags = s.eflags := rfl
@[simp] theorem loadEax_cfg : (loadEax n s).cfg = s.cfg := rfl
@[simp] theorem loadEax_code : (loadEax n s).code = s.code := rfl
@[simp] theorem loadEax_codeEnd : (loadEax n s).codeEnd = s.codeEnd := rfl
@[simp] theorem loadEax_executions : (loadEax n s).executions = s.executions := rfl
@[simp] theorem inputValue_loadEax : inputValue (loadEax n s) = n := rfl

@[simp] theorem placeAtPc_regs : (placeAtPc bytes s).regs = s.regs := rfl
@[simp] theorem placeAtPc_eaxWritten : (placeAtPc bytes s).eaxWritten = s.eaxWritten := rfl
@[simp] theorem placeAtPc_pc : (placeAtPc bytes s).pc = s.pc := rfl
@[simp] theorem placeAtPc_eflags : (placeAtPc bytes s).eflags = s.eflags := rfl
@[simp] theorem placeAtPc_cfg : (placeAtPc bytes s).cfg = s.cfg := rfl
@[simp] theorem placeAtPc_code : (placeAtPc bytes s).code = s.code.writeBytes s.pc.toNat bytes := rfl
@[simp] theorem placeAtPc_executions : (placeAtPc bytes s).executions = s.executions := rfl

theorem writeIdFlag_of_implemented (h : s.cfg.cpuidImplemented = true) :
    writeIdFlag b s = { s with eflags := { s.eflags with id := b } } := by simp [writeIdFlag, h]

theorem writeIdFlag_of_absent (h : s.cfg.cpuidImplemented = false) : writeIdFlag b s = s := by
  simp [writeIdFlag, h]

@[simp] theorem RunOutcome.ofExec_next (t : State) : RunOutcome.ofExec (.next t) = .next t := rfl
@[simp] theorem RunOutcome.ofExec_fault (f : Fault) : RunOutcome.ofExec (.fault f) = .fault f := rfl
@[simp] theorem RunOutcome.ofExec_refused (r : Refusal) : RunOutcome.ofExec (.refused r) = .refusal r := rfl

@[simp] theorem writeIdFlag_cfg : (writeIdFlag b s).cfg = s.cfg := by
  unfold writeIdFlag; split <;> rfl

@[simp] theorem Regs.get_set_same (r : Reg) : Regs.get (Regs.set q r v) r = v := by cases r <;> rfl

theorem Regs.get_set_other {r r' : Reg} (h : r' ≠ r) : Regs.get (Regs.set q r v) r' = Regs.get q r' := by
  cases r <;> cases r' <;> first | rfl | exact absurd rfl h

end Sys2Proof.Machine
end

