-- ==== Sys2Proof/Laws/Cpuid.lean ====
section
/-! SUPPORT. What the classification, the information and the meaning of `CPUID` can answer. -/

namespace Sys2Proof.Machine

theorem classify_basic {c : Cfg} {n : Word} (h : n ≤ c.maxBasic) : classify c n = .basic n := by
  simp [classify, h]

theorem classify_extended {c : Cfg} {n : Word} (h : ¬ n ≤ c.maxBasic) (he : c.extImplemented = true)
    (h1 : 0x80000000#32 ≤ n) (h2 : n ≤ c.maxExt) : classify c n = .extended n := by
  simp [classify, h, he, h1, h2]

/-- The basic inputs the spec has rules for. -/
theorem info_isSome_of_le_three {c : Cfg} {d : Draws} {n : Word} (h : n ≤ 3#32) : (info c d n).isSome = true := by
  have : n = 0#32 ∨ n = 1#32 ∨ n = 2#32 ∨ n = 3#32 := by bv_omega
  rcases this with rfl | rfl | rfl | rfl <;> rfl

/-- The extended inputs the spec has rules for. -/
theorem info_isSome_of_extended {c : Cfg} {d : Draws} {n : Word} (h : 0x80000000#32 ≤ n)
    (h' : n ≤ 0x80000004#32) : (info c d n).isSome = true := by
  have : n = 0x80000000#32 ∨ n = 0x80000001#32 ∨ n = 0x80000002#32 ∨ n = 0x80000003#32 ∨
      n = 0x80000004#32 := by bv_omega
  rcases this with rfl | rfl | rfl | rfl | rfl <;> rfl

/-- A well-formed configuration that has the instruction selects information for every input. -/
theorem cpuidResult_isSome {c : Cfg} (d : Draws) (n : Word) (hw : c.WellFormed) (hi : c.cpuidImplemented = true) :
    (cpuidResult c d n).isSome = true := by
  obtain ⟨hb, he, -⟩ := hw
  obtain ⟨-, hb3⟩ := hb hi
  unfold cpuidResult classify
  by_cases h : n ≤ c.maxBasic
  · simp only [if_pos h]
    exact info_isSome_of_le_three (BitVec.le_trans h hb3)
  · by_cases hx : c.extImplemented = true ∧ 0x80000000#32 ≤ n ∧ n ≤ c.maxExt
    · simp only [if_neg h, if_pos hx]
      exact info_isSome_of_extended hx.2.1 (BitVec.le_trans hx.2.2 (he hx.1).2.2)
    · simp only [if_neg h, if_neg hx, outOfRangeInfo]
      cases c.oorPolicy
      · exact info_isSome_of_le_three hb3
      · rfl

/-- A configuration the document does not cover is refused, whatever else the state holds (R8). -/
theorem execCpuid_illFormed {s : State} (h : ¬ s.cfg.WellFormed) : execCpuid s = .refused .illFormedConfig := by
  rw [execCpuid, if_pos h]

/-- Without the instruction: #UD, before EAX is looked at (R80, R88). -/
theorem execCpuid_absent {s : State} (h : s.cfg.WellFormed) (hi : s.cfg.cpuidImplemented = false) :
    execCpuid s = .fault (.exception .invalidOpcode s.pc) := by
  rw [execCpuid, if_neg (not_not.mpr h), if_pos hi, raiseException]

/-- With the instruction and an EAX that nothing has written: the fault of R230(c). -/
theorem execCpuid_unwritten {s : State} (h : s.HasCpuid) (he : s.eaxWritten = false) :
    execCpuid s = .fault (.eaxUnwritten s.pc) := by
  rw [execCpuid, if_neg (not_not.mpr h.1), if_neg (by simp [h.2]), if_pos he]

/-- In a ready state `CPUID` completes with whatever its input selects. -/
theorem execCpuid_ready {s : State} {q : Regs} (h : s.Ready)
    (hq : cpuidResult s.cfg (Config.draws s.executions) (inputValue s) = some q) :
    execCpuid s = .next (completeWith q s) := by
  rw [execCpuid, if_neg (not_not.mpr h.1.1), if_neg (by simp [h.1.2]), if_neg (by simp [h.2]), hq]

/-- `CPUID` answers a next state in no other way. -/
theorem execCpuid_next_iff {s t : State} :
    execCpuid s = .next t ↔
      s.Ready ∧ ∃ q, cpuidResult s.cfg (Config.draws s.executions) (inputValue s) = some q ∧
        t = completeWith q s := by
  constructor
  · intro h
    unfold execCpuid at h
    split at h
    · cases h
    · rename_i hw
      split at h
      · cases h
      · rename_i hi
        split at h
        · cases h
        · rename_i he
          split at h
          · rename_i q hq
            cases h
            exact ⟨⟨⟨not_not.mp hw, by simpa using hi⟩, by simpa using he⟩, q, hq, rfl⟩
          · cases h
  · rintro ⟨hr, q, hq, rfl⟩
    exact execCpuid_ready hr hq

/-- The four cases of `CPUID`, of which exactly one holds in a state. -/
theorem execCpuid_cases (s : State) :
    (¬ s.cfg.WellFormed ∧ execCpuid s = .refused .illFormedConfig) ∨
    (s.cfg.WellFormed ∧ s.cfg.cpuidImplemented = false ∧ execCpuid s = .fault (.exception .invalidOpcode s.pc)) ∨
    (s.HasCpuid ∧ s.eaxWritten = false ∧ execCpuid s = .fault (.eaxUnwritten s.pc)) ∨
    (s.Ready ∧ ∃ q, cpuidResult s.cfg (Config.draws s.executions) (inputValue s) = some q ∧
      execCpuid s = .next (completeWith q s)) := by
  by_cases hw : s.cfg.WellFormed
  · cases hi : s.cfg.cpuidImplemented
    · exact .inr (.inl ⟨hw, rfl, execCpuid_absent hw hi⟩)
    · cases he : s.eaxWritten
      · exact .inr (.inr (.inl ⟨⟨hw, hi⟩, rfl, execCpuid_unwritten ⟨hw, hi⟩ he⟩))
      · obtain ⟨q, hq⟩ := Option.isSome_iff_exists.mp
          (cpuidResult_isSome (Config.draws s.executions) (inputValue s) hw hi)
        exact .inr (.inr (.inr ⟨⟨⟨hw, hi⟩, he⟩, q, hq, execCpuid_ready ⟨⟨hw, hi⟩, he⟩ hq⟩))
  · exact .inl ⟨hw, execCpuid_illFormed hw⟩

end Sys2Proof.Machine
end

