-- ==== Sys2Proof/Laws/Leaves.lean ====
section
/-! SUPPORT. The fields of the words that input 1 returns, and the information of each input. -/

namespace Sys2Proof.Machine

variable (c : Cfg) (d : Draws)

@[simp] theorem info_vendor : info c d 0#32 = some (infoVendor c) := rfl
@[simp] theorem info_version : info c d 1#32 = some (infoVersion c d) := rfl
@[simp] theorem info_caches : info c d 2#32 = some (infoCaches c) := rfl
@[simp] theorem info_serial : info c d 3#32 = some (infoSerial c d) := rfl
@[simp] theorem info_extMax : info c d 0x80000000#32 = some (infoExtMax c d) := rfl
@[simp] theorem info_extSignature : info c d 0x80000001#32 = some (infoExtSignature d) := rfl
@[simp] theorem info_brand (k : Fin 3) :
    info c d (0x80000002#32 + BitVec.ofNat 32 k.val) = some (infoBrand c k) := by
  fin_cases k <;> rfl

/-- Every bit of the feature flags: draws at 10 and 20, the configuration elsewhere. -/
theorem featureFlags_getLsbD (i : Nat) (hi : i < 32) :
    (featureFlags c d).getLsbD i =
      if i = 10 then d.feature10.getLsbD 0
      else if i = 20 then d.feature20.getLsbD 0
      else c.features.getLsbD i := by
  unfold featureFlags
  simp only [BitVec.getLsbD_append, BitVec.getLsbD_extractLsb']
  interval_cases i <;> simp

/-- A named feature is read from the configuration. -/
theorem supports_featureFlags (f : Feature) : supports (featureFlags c d) f = bitOf c.features f.bit := by
  simp only [supports, bitOf]
  rw [featureFlags_getLsbD] <;> cases f <;> simp [Feature.bit]

/-- The fields of the version word, low to high. -/
theorem versionInfo_fields :
    (versionInfo c d).extractLsb' 0 4 = c.stepping ∧
    (versionInfo c d).extractLsb' 4 4 = c.model ∧
    (versionInfo c d).extractLsb' 8 4 = c.family ∧
    (versionInfo c d).extractLsb' 12 2 = c.ptype ∧
    (versionInfo c d).extractLsb' 14 2 = d.versionMid ∧
    (versionInfo c d).extractLsb' 16 4 = c.extModel ∧
    (versionInfo c d).extractLsb' 20 4 = c.extFamily ∧
    (versionInfo c d).extractLsb' 24 8 = d.versionHigh := by
  unfold versionInfo
  refine ⟨?_, ?_, ?_, ?_, ?_, ?_, ?_, ?_⟩ <;>
  · apply BitVec.eq_of_getLsbD_eq
    intro i hi
    simp only [BitVec.getLsbD_extractLsb', BitVec.getLsbD_append]
    interval_cases i <;> simp

/-- The fields of the word with brand index, line size and APIC ID, low to high. -/
theorem miscInfo_fields :
    (miscInfo c d).extractLsb' 0 8 = c.brandIndex ∧
    (miscInfo c d).extractLsb' 8 8 = c.clflushLine ∧
    (miscInfo c d).extractLsb' 16 8 = d.miscReserved ∧
    (miscInfo c d).extractLsb' 24 8 = c.apicId := by
  unfold miscInfo
  refine ⟨?_, ?_, ?_, ?_⟩ <;>
  · apply BitVec.eq_of_getLsbD_eq
    intro i hi
    simp only [BitVec.getLsbD_extractLsb', BitVec.getLsbD_append]
    interval_cases i <;> simp

/-- The format of the brand string, byte by byte (R173). -/
theorem brandFormatted_iff {c : Cfg} :
    c.brandFormatted = true ↔ (∀ i : Fin 48, i.val < 47 → isAscii (c.brandByte i)) ∧ c.brandByte 47 = 0#8 := by
  rw [Cfg.brandFormatted, decide_eq_true_iff]
  refine ⟨fun h => ⟨fun i hi => ?_, ?_⟩, fun ⟨h, h47⟩ i => ?_⟩
  · simpa only [if_pos hi] using h i
  · exact h 47
  · split
    · rename_i hi; exact h i hi
    · rename_i hi
      obtain rfl : i = 47 := Fin.ext (by have := i.isLt; omega)
      exact h47

/-- Every byte of the brand string of an admitted configuration with extended information is ASCII, and the last is
null (R173). -/
theorem brandByte_of_wellFormed {c : Cfg} (hw : c.WellFormed) (he : c.extImplemented = true) :
    (∀ i : Fin 48, isAscii (c.brandByte i)) ∧ c.brandByte 47 = 0#8 := by
  obtain ⟨h, h47⟩ := brandFormatted_iff.mp (hw.2.2.2 he)
  refine ⟨fun i => ?_, h47⟩
  by_cases hi : i.val < 47
  · exact h i hi
  · obtain rfl : i = 47 := Fin.ext (by have := i.isLt; omega)
    rw [isAscii, h47]
    decide

/-- `P4FIRST` is admitted exactly where its brand string has its format (R184). -/
theorem p4first_wellFormed_iff {o : P4Open} : (Cfg.p4first o).WellFormed ↔ (Cfg.p4first o).BrandFormat := by
  refine ⟨fun h => h.2.2.2, fun h => ⟨?_, ?_, ?_, h⟩⟩ <;> intro _ <;> simp only [Cfg.p4first] <;> decide

end Sys2Proof.Machine
end

