-- ==== Sys2Proof/Laws/Memory.lean ====
section
/-! SUPPORT. Reading after writing, and the canonical form: every memory operation keeps it, and equal memories
are equal data. -/

namespace Sys2Proof.Machine

theorem Memory.read_write_same (m : Memory) (a : Nat) (v : Byte) : (m.write a v).read a = some v := by
  induction m with
  | nil => simp [Memory.write, Memory.read]
  | cons c m ih =>
    obtain ⟨b, w⟩ := c
    unfold Memory.write
    split
    · simp [Memory.read]
    · split
      · simp [Memory.read]
      · simp [Memory.read, *]

theorem Memory.read_write_other (m : Memory) {a a' : Nat} (v : Byte) (h : a' ≠ a) :
    (m.write a v).read a' = m.read a' := by
  induction m with
  | nil => simp [Memory.write, Memory.read, h]
  | cons c m ih =>
    obtain ⟨b, w⟩ := c
    unfold Memory.write
    split
    · simp [Memory.read, h]
    · split
      · subst_vars; simp [Memory.read, h]
      · simp [Memory.read, ih]

theorem Memory.risingFrom_write {m : Memory} {lo a : Nat} (v : Byte) (hm : m.risingFrom lo = true)
    (hlo : lo ≤ a) (ha : a < 2 ^ 32) : (m.write a v).risingFrom lo = true := by
  induction m generalizing lo with
  | nil => simp [Memory.write, Memory.risingFrom]; omega
  | cons c m ih =>
    obtain ⟨b, w⟩ := c
    simp only [Memory.risingFrom, Bool.and_eq_true, decide_eq_true_eq] at hm
    unfold Memory.write
    split
    · simp [Memory.risingFrom, hm]; omega
    · split
      · subst_vars; simp [Memory.risingFrom, hm.2, hlo]; omega
      · simp [Memory.risingFrom, hm.1.1, ih hm.2 (by omega)]; omega

/-- Writing a byte at a 32-bit address keeps the canonical form. -/
theorem Memory.wf_write {m : Memory} {a : Nat} (v : Byte) (hm : m.wf = true) (ha : a < 2 ^ 32) :
    (m.write a v).wf = true :=
  Memory.risingFrom_write v hm (Nat.zero_le a) ha

/-- Placing bytes keeps the canonical form, wherever they are placed. -/
theorem Memory.wf_writeBytes {m : Memory} (bytes : List Byte) (a : Nat) (hm : m.wf = true) :
    (m.writeBytes a bytes).wf = true := by
  induction bytes generalizing m a with
  | nil => exact hm
  | cons v vs ih =>
    unfold Memory.writeBytes
    split
    · exact ih (a + 1) (Memory.wf_write v hm ‹_›)
    · exact hm

/-- An address below the first one listed is outside the code memory. -/
theorem Memory.read_of_lt {m : Memory} {lo a : Nat} (hm : m.risingFrom lo = true) (h : a < lo) :
    m.read a = none := by
  induction m generalizing lo with
  | nil => rfl
  | cons c m ih =>
    obtain ⟨b, w⟩ := c
    simp only [Memory.risingFrom, Bool.and_eq_true, decide_eq_true_eq] at hm
    rw [Memory.read, if_neg (by omega), ih hm.2 (by omega)]

/-- Two memories in canonical form that read alike are the same data. -/
theorem Memory.risingFrom_ext {m m' : Memory} {lo : Nat} (hm : m.risingFrom lo = true)
    (hm' : m'.risingFrom lo = true) (h : ∀ a, m.read a = m'.read a) : m = m' := by
  induction m generalizing m' lo with
  | nil =>
    cases m' with
    | nil => rfl
    | cons c m' => have := h c.1; simp [Memory.read] at this
  | cons c m ih =>
    obtain ⟨b, w⟩ := c
    cases m' with
    | nil => have := h b; simp [Memory.read] at this
    | cons c' m' =>
      obtain ⟨b', w'⟩ := c'
      simp only [Memory.risingFrom, Bool.and_eq_true, decide_eq_true_eq] at hm hm'
      have hbb : b = b' := by
        have h1 := h b
        have h2 := h b'
        simp only [Memory.read, if_pos] at h1 h2
        by_contra hne
        rcases Nat.lt_or_gt_of_ne hne with hlt | hlt
        · rw [if_neg (by omega), Memory.read_of_lt hm'.2 (by omega)] at h1; cases h1
        · rw [if_neg (by omega), Memory.read_of_lt hm.2 (by omega)] at h2; cases h2
      subst hbb
      have hw : w = w' := by have := h b; simpa [Memory.read] using this
      subst hw
      rw [ih hm.2 hm'.2 fun a => ?_]
      by_cases hab : a = b
      · subst hab
        rw [Memory.read_of_lt hm.2 (by omega), Memory.read_of_lt hm'.2 (by omega)]
      · simpa [Memory.read, hab] using h a

theorem Memory.wf_ext {m m' : Memory} (hm : m.wf = true) (hm' : m'.wf = true)
    (h : ∀ a, m.read a = m'.read a) : m = m' :=
  Memory.risingFrom_ext hm hm' h

/-- What the code memory reads as after bytes are placed from `a`: those of the bytes whose address exists, and elsewhere
as before. -/
theorem Memory.read_writeBytes (bytes : List Byte) (m : Memory) (a b : Nat) :
    (m.writeBytes a bytes).read b =
      if a ≤ b ∧ b < a + bytes.length ∧ b < 2 ^ 32 then bytes[b - a]? else m.read b := by
  induction bytes generalizing m a with
  | nil => simp [Memory.writeBytes]; omega
  | cons v vs ih =>
    rw [Memory.writeBytes, List.length_cons]
    split
    · rename_i ha
      rw [ih]
      by_cases hb : b = a
      · subst hb
        rw [if_neg (by omega), if_pos (by omega), Memory.read_write_same]
        simp
      · rw [Memory.read_write_other _ _ hb]
        by_cases h : a + 1 ≤ b ∧ b < a + 1 + vs.length ∧ b < 2 ^ 32
        · rw [if_pos h, if_pos (by omega), show b - a = b - (a + 1) + 1 by omega, List.getElem?_cons_succ]
        · rw [if_neg h, if_neg (by omega)]
    · rw [if_neg (by omega)]

/-- Placing an instruction at `pc` keeps the canonical form of the code memory. -/
theorem placeAtPc_wf (bytes : List Byte) (s : State) (h : s.code.wf = true) :
    (placeAtPc bytes s).code.wf = true :=
  Memory.wf_writeBytes bytes _ h

/-- A launch begins with its code in the canonical form. -/
theorem launch_wf {l : Launch} {s : State} (h : State.launch l = .ok s) : s.code.wf = true := by
  unfold State.launch at h
  split at h <;> cases h
  exact Memory.wf_writeBytes l.code _ rfl

theorem reset_code_wf : State.reset.code.wf = true := rfl

end Sys2Proof.Machine
end

