-- ==== Sys2Proof/Laws/Ops.lean ====
section
/-! SUPPORT. Everything the fetch and the step can do, said once. -/

namespace Sys2Proof.Machine

/-- A fetch succeeds exactly where both bytes are in the code memory, below the top (R61). -/
theorem fetch_ok_iff {s : State} {b0 b1 : Byte} :
    fetch s = .ok (b0, b1) ↔
      s.pc < 0xFFFFFFFE#32 ∧ s.code.read s.pc.toNat = some b0 ∧ s.code.read (s.pc.toNat + 1) = some b1 := by
  unfold fetch
  split
  · rename_i h; simp [BitVec.not_lt.mpr h]
  · rename_i h
    rw [BitVec.not_le] at h
    split
    · rename_i h0 h1; simp [h, h0, h1]
    · rename_i hn
      simp only [reduceCtorEq, false_iff, not_and]
      exact fun _ h0 h1 => hn _ _ h0 h1

theorem decode_pair_ok_iff {b0 b1 : Byte} {i : Instr} {rest : List Byte} :
    decode [b0, b1] = .ok (i, rest) ↔ b0 = 0x0F#8 ∧ b1 = 0xA2#8 ∧ rest = [] := by
  cases i
  rw [decode]
  split
  · rename_i h; simp [h, eq_comm]
  · rename_i h
    simp only [reduceCtorEq, false_iff]
    exact fun ⟨h0, h1, _⟩ => h ⟨h0, h1⟩

/-- The instruction at `pc` is `CPUID` exactly where its two bytes stand there (R61, R65). -/
theorem fetchInstr_ok_iff {s : State} {i : Instr} :
    fetchInstr s = .ok i ↔ fetch s = .ok (0x0F#8, 0xA2#8) := by
  cases i
  unfold fetchInstr
  split
  · rename_i h; simp [h]
  · rename_i b0 b1 h
    rw [h]
    split
    · rename_i i rest hd
      obtain ⟨rfl, rfl, -⟩ := decode_pair_ok_iff.mp hd
      cases i; simp
    · rename_i hd
      simp only [reduceCtorEq, Except.ok.injEq, Prod.mk.injEq, false_iff]
      rintro ⟨rfl, rfl⟩
      rw [decode_pair_ok_iff (i := .cpuid).mpr ⟨rfl, rfl, rfl⟩] at hd
      cases hd

theorem stepOutcome_illFormed {s : State} (h : ¬ s.cfg.WellFormed) : stepOutcome s = .refusal .illFormedConfig := by
  rw [stepOutcome, if_pos h]

theorem stepOutcome_final {s : State} (h : s.cfg.WellFormed) (he : atEnd s) : stepOutcome s = .final := by
  rw [stepOutcome, if_neg (not_not.mpr h), if_pos he]

theorem stepOutcome_refused {s : State} {r : Refusal} (h : s.cfg.WellFormed) (he : ¬ atEnd s)
    (hf : fetchInstr s = .error r) : stepOutcome s = .refusal r := by
  rw [stepOutcome, if_neg (not_not.mpr h), if_neg he, hf]

theorem stepOutcome_exec {s : State} {i : Instr} (h : s.cfg.WellFormed) (he : ¬ atEnd s)
    (hf : fetchInstr s = .ok i) : stepOutcome s = .ofExec (exec i s) := by
  rw [stepOutcome, if_neg (not_not.mpr h), if_neg he, hf]

/-- The four cases of a step, of which exactly one holds in a state. -/
theorem stepOutcome_cases (s : State) :
    (¬ s.cfg.WellFormed ∧ stepOutcome s = .refusal .illFormedConfig) ∨
    (s.cfg.WellFormed ∧ atEnd s ∧ stepOutcome s = .final) ∨
    (s.cfg.WellFormed ∧ ¬ atEnd s ∧ ∃ r, fetchInstr s = .error r ∧ stepOutcome s = .refusal r) ∨
    (s.cfg.WellFormed ∧ ¬ atEnd s ∧ ∃ i, fetchInstr s = .ok i ∧ stepOutcome s = .ofExec (exec i s)) := by
  by_cases hw : s.cfg.WellFormed
  · by_cases he : atEnd s
    · exact .inr (.inl ⟨hw, he, stepOutcome_final hw he⟩)
    · cases hf : fetchInstr s with
      | error r => exact .inr (.inr (.inl ⟨hw, he, r, rfl, stepOutcome_refused hw he hf⟩))
      | ok i => exact .inr (.inr (.inr ⟨hw, he, i, rfl, stepOutcome_exec hw he hf⟩))
  · exact .inl ⟨hw, stepOutcome_illFormed hw⟩

/-- Where the fetch gives an instruction before the end of the run, the step is its meaning: the meaning refuses an
ill-formed configuration just as the step does. -/
theorem step_exec {s : State} {i : Instr} (he : ¬ atEnd s) (hf : fetchInstr s = .ok i) : step s = exec i s := by
  by_cases hw : s.cfg.WellFormed
  · rw [step, stepOutcome_exec hw he hf]; cases exec i s <;> rfl
  · rw [step, stepOutcome_illFormed hw]; cases i; exact (execCpuid_illFormed hw).symm

/-- A step that answers a next state executed a fetched instruction, before the end of the run. -/
theorem step_next_iff {s t : State} :
    step s = .next t ↔ ¬ atEnd s ∧ fetch s = .ok (0x0F#8, 0xA2#8) ∧ exec .cpuid s = .next t := by
  constructor
  · intro h
    rcases stepOutcome_cases s with ⟨_, ho⟩ | ⟨_, _, ho⟩ | ⟨_, _, r, _, ho⟩ | ⟨_, he, i, hf, _⟩
    · rw [step, ho] at h; cases h
    · rw [step, ho] at h; cases h
    · rw [step, ho] at h; cases h
    · cases i; exact ⟨he, fetchInstr_ok_iff.mp hf, (step_exec he hf).symm.trans h⟩
  · rintro ⟨he, hf, hx⟩
    rw [step_exec he (fetchInstr_ok_iff.mpr hf), hx]

/-- A launch is accepted exactly with a configuration the document covers (R8), and begins as its caller says (R38). -/
theorem launch_ok_iff {l : Launch} {s : State} :
    State.launch l = .ok s ↔
      l.cfg.WellFormed ∧
      { regs := { eax := l.eax.getD 0#32, ebx := l.ebx, ecx := l.ecx, edx := l.edx }
        eaxWritten := l.eax.isSome
        pc := l.codeBase
        eflags := l.eflags
        cfg := l.cfg
        code := Memory.writeBytes [] l.codeBase.toNat l.code
        codeEnd := l.codeBase + BitVec.ofNat 32 l.code.length
        executions := 0 } = s := by
  by_cases h : l.cfg.WellFormed
  · rw [State.launch, if_pos h, Except.ok.injEq]; exact (and_iff_right h).symm
  · rw [State.launch, if_neg h]; simp [h]

end Sys2Proof.Machine
end

