-- ==== Sys2Proof/Laws/PerInstr.lean ====
section
/-! SUPPORT. Laws of the syntax, one lemma per constructor. -/

namespace Sys2Proof.Laws.EncodedLength

/-- An instruction is well formed and its encoding has the length the format gives it (R60). -/
def Statement (i : Instr) : Prop := i.WellFormed = true ∧ (encode i).length = i.length

theorem cpuid : Statement .cpuid := ⟨rfl, rfl⟩

end Sys2Proof.Laws.EncodedLength
end

