-- ==== Sys2Proof/Laws/Procedures.lean ====
section
/-! SUPPORT. What a procedure's `x[EAX] <- n ; CPUID` answers. -/

namespace Sys2Proof.Machine

theorem cpuidResult_of_basic {c : Cfg} {d : Draws} {n : Word} (h : n ≤ c.maxBasic) :
    cpuidResult c d n = info c d n := by
  rw [cpuidResult, classify_basic h]

theorem cpuidResult_of_extended {c : Cfg} {d : Draws} {n : Word} (hw : c.WellFormed)
    (he : c.extImplemented = true) (h1 : 0x80000000#32 ≤ n) (h2 : n ≤ c.maxExt) :
    cpuidResult c d n = info c d n := by
  have := (hw.1 (hw.2.1 he).1).2
  rw [cpuidResult, classify_extended (by bv_omega) he h1 h2]

/-- A query of a processor that has `CPUID` answers whatever its input selects, with that execution's draws. -/
theorem query_ready {n : Word} {s : State} {c : Cfg} {q : Regs} (hc : s.cfg = c) (h : c.WellFormed)
    (hi : c.cpuidImplemented = true) (hq : cpuidResult c (Config.draws s.executions) n = some q) :
    query n s = some (completeWith q (loadEax n s)) := by
  subst hc
  have : execCpuid (loadEax n s) = .next (completeWith q (loadEax n s)) :=
    execCpuid_ready (s := loadEax n s) ⟨⟨h, hi⟩, rfl⟩ hq
  simp only [query, this]

end Sys2Proof.Machine
end

