-- ==== Sys2Proof/Tests/Slice0.lean ====
section
/-! SUPPORT. Tests: the spec's own examples and vectors (95_test_vectors.md), and a witness for the hypotheses of every
statement. -/

namespace Sys2Proof.Tests

open Sys2Proof Sys2Proof.Machine

/-! ### The configurations of 95_test_vectors.md §0 -/

def testOpen : P4Open where
  stepping := 7#4
  extModel := 2#4
  extFamily := 1#4
  brandIndex := 8#8
  clflushLine := 8#8
  apicId := 3#8
  features := 0x06888111#32
  brandWords := #v[0x44434241#32, 0x48474645#32, 0x4C4B4A49#32, 0x504F4E4D#32, 0x54535251#32, 0x58575655#32,
    0x62615A59#32, 0x66656463#32, 0x6A696867#32, 0x6E6D6C6B#32, 0x7271706F#32, 0x00757473#32]

def testCfg : Cfg := Cfg.p4first testOpen

def piiiCfg : Cfg :=
  { testCfg with
    maxBasic := 3#32, extImplemented := false, oorPolicy := .draw,
    stepping := 3#4, model := 7#4, family := 6#4, extModel := 0#4, extFamily := 0#4,
    brandIndex := 2#8, clflushLine := 0#8, apicId := 0#8, features := 0x03848111#32,
    l2Eax := 1#32, l2Edx := 0#32, psnLo := 0x89ABCDEF#32, psnHi := 0x01234567#32 }

def pentCfg : Cfg :=
  { piiiCfg with
    maxBasic := 1#32, stepping := 2#4, model := 4#4, family := 5#4, brandIndex := 0#8, features := 0x00000111#32 }

def noCpuid : Cfg := { pentCfg with cpuidImplemented := false, extImplemented := false }

/-- A launch at 1000H of one `CPUID`. -/
def launchOf (c : Cfg) (eax : Option Word) : Launch where
  codeBase := 0x1000#32
  code := [0x0F#8, 0xA2#8]
  cfg := c
  eax := eax
  ebx := 0xAAAAAAAA#32
  ecx := 0xBBBBBBBB#32
  edx := 0xCCCCCCCC#32
  eflags := ⟨true, false, true⟩

/-- The state it begins in, for a configuration that a launch accepts. -/
def launchedWith (c : Cfg) (eax : Option Word) : State := (State.launch (launchOf c eax)).toOption.getD State.reset

def launched (c : Cfg) (eax : Word) : State := launchedWith c (some eax)

def zeros : Draws := default

def ones : Draws :=
  { versionHigh := 0xFF#8, versionMid := 3#2, miscReserved := 0xFF#8, leaf1Ecx := allBits, feature10 := 1#1,
    feature20 := 1#1, serialEax := allBits, serialEbx := allBits, extMaxEbx := allBits, extMaxEcx := allBits,
    extMaxEdx := allBits, extSignature := ⟨allBits, allBits, allBits, allBits⟩,
    outOfRange := ⟨allBits, allBits, allBits, allBits⟩ }

/-! ### Decoding (V1 to V5) -/

theorem test_decode_cpuid : decode [0b00001111#8, 0b10100010#8, 0x90#8] = .ok (.cpuid, [0x90#8]) := by decide

theorem test_decode_refuses :
    decode [0x0F#8, 0xA3#8] = .error (.notInTable 0x0F#8 0xA3#8) ∧
    decode [0xA2#8, 0x0F#8] = .error (.notInTable 0xA2#8 0x0F#8) ∧
    decode [0x66#8, 0x0F#8, 0xA2#8] = .error (.notInTable 0x66#8 0x0F#8) ∧
    decode [] = .error .truncated := by decide

theorem test_table_word :
    decodeTableWord 16 0x0FA2 = some .cpuid ∧ decodeTableWord 16 0xA20F = none ∧ encode .cpuid = [0x0F#8, 0xA2#8] := by
  decide

theorem test_first_step_after_reset_runs_cpuid :
    ∃ t, step (State.reset.withFetchWord 16 0x0FA2) = .next t ∧ t.regs.eax = 2#32 ∧ t.pc = 2#32 := ⟨_, rfl, rfl, rfl⟩

/-! ### Well-formedness: each check refuses an ill-formed configuration (V61, V62); an instruction has no check -/

theorem test_wellFormed : Instr.cpuid.WellFormed = true ∧ testCfg.WellFormed ∧ piiiCfg.WellFormed ∧ noCpuid.WellFormed := by
  decide

theorem test_illFormed :
    ([{ testCfg with l2Eax := 0x665B5002#32 }, { testCfg with maxBasic := 4#32 }, { testCfg with maxBasic := 0#32 },
      { testCfg with maxExt := 0x80000005#32 }, { testCfg with maxExt := 0x7FFFFFFF#32 },
      { testCfg with cpuidImplemented := false }, { testCfg with brandWords := testCfg.brandWords.set 11 0x41757473#32 },
      { testCfg with brandWords := testCfg.brandWords.set 0 0x444342C1#32 }] : List Cfg).all (fun c => !decide c.WellFormed) = true := by decide

/-- A launch accepts a covered configuration and refuses another (V61). -/
theorem test_launch :
    State.launch (launchOf testCfg (some 0#32)) = .ok (launched testCfg 0#32) ∧
    State.launch (launchOf { testCfg with l2Eax := 0x665B5002#32 } (some 0#32)) = .error .illFormedConfig := ⟨rfl, rfl⟩

/-! ### The instruction: V53 with V15, and V57 -/

theorem test_cpuid_input_zero :
    ∃ t, step (launched testCfg 0#32) = .next t ∧ t.pc = 0x1002#32 ∧
      t.regs = ⟨2#32, 0x756E6547#32, 0x6C65746E#32, 0x49656E69#32⟩ := ⟨_, rfl, rfl, rfl⟩

theorem test_cpuid_absent :
    step (launched noCpuid 1#32) = .fault (.exception .invalidOpcode 0x1000#32) := rfl

/-- V56: EAX not supplied at launch; on a processor without the instruction #UD comes first (R80). -/
theorem test_eax_unwritten :
    step (launchedWith testCfg none) = .fault (.eaxUnwritten 0x1000#32) ∧
    step (launchedWith noCpuid none) = .fault (.exception .invalidOpcode 0x1000#32) := ⟨rfl, rfl⟩

/-! ### Classification and information (V8 to V22, V36 to V52) -/

theorem test_classify :
    classify testCfg 2#32 = .basic 2#32 ∧ classify testCfg 3#32 = .outOfRange ∧
    classify testCfg 0x7FFFFFFF#32 = .outOfRange ∧ classify testCfg 0x80000000#32 = .extended 0x80000000#32 ∧
    classify testCfg 0x80000004#32 = .extended 0x80000004#32 ∧ classify testCfg 0x80000005#32 = .outOfRange ∧
    classify piiiCfg 3#32 = .basic 3#32 ∧ classify piiiCfg 0x80000000#32 = .outOfRange ∧
    classify pentCfg 2#32 = .outOfRange := by decide

theorem test_input_one :
    cpuidResult testCfg zeros 1#32 = some ⟨0x00120F07#32, 0x03000808#32, 0#32, 0x06888111#32⟩ ∧
    cpuidResult testCfg ones 1#32 = some ⟨0xFF12CF07#32, 0x03FF0808#32, 0xFFFFFFFF#32, 0x06988511#32⟩ := by decide

theorem test_other_inputs :
    cpuidResult testCfg ones 2#32 = some ⟨0x665B5001#32, 0#32, 0#32, 0x007A7000#32⟩ ∧
    cpuidResult piiiCfg zeros 3#32 = some ⟨0#32, 0#32, 0x89ABCDEF#32, 0x01234567#32⟩ ∧
    cpuidResult testCfg zeros 0x80000000#32 = some ⟨0x80000004#32, 0#32, 0#32, 0#32⟩ ∧
    cpuidResult testCfg zeros 0x80000001#32 = some ⟨0#32, 0#32, 0#32, 0#32⟩ ∧
    cpuidResult testCfg ones 0x80000003#32 =
      some ⟨0x54535251#32, 0x58575655#32, 0x62615A59#32, 0x66656463#32⟩ ∧
    cpuidResult testCfg ones 0x80000004#32 =
      some ⟨0x6A696867#32, 0x6E6D6C6B#32, 0x7271706F#32, 0x00757473#32⟩ := by decide

theorem test_out_of_range :
    cpuidResult testCfg ones 5#32 = some ⟨0x665B5001#32, 0#32, 0#32, 0x007A7000#32⟩ ∧
    cpuidResult testCfg ones 0xFFFFFFFF#32 = some ⟨0x665B5001#32, 0#32, 0#32, 0x007A7000#32⟩ ∧
    cpuidResult piiiCfg ones 4#32 = some ones.outOfRange ∧
    cpuidResult { piiiCfg with oorPolicy := .highestBasic } zeros 4#32 =
      some ⟨0#32, 0#32, 0x89ABCDEF#32, 0x01234567#32⟩ ∧
    cpuidResult { pentCfg with oorPolicy := .highestBasic } zeros 2#32 =
      some ⟨0x00000542#32, 0#32, 0#32, 0x00000111#32⟩ := by decide

/-! ### Reading the results (V23 to V35, V41) -/

theorem test_version_reading :
    steppingField 0x00120F07#32 = 7#4 ∧ modelNumber 0x00120F07#32 = 0#8 ∧ familyNumber 0xFF12CF07#32 = 0x1F#8 ∧
    processorType (ptypeField 0x00120F07#32) = .originalOem ∧
    familyNumber 0x000306F0#32 = 6#8 ∧ modelNumber 0x000306F0#32 = 0x3F#8 := by decide

theorem test_ebx_reading :
    clflushLineBytes 0x00000800#32 = 64 ∧ clflushLineBytes 0x0000FF00#32 = 2040 ∧
    apicIdField 0x03000808#32 = 3#8 ∧ brandIndexEntry (brandIndexField 0x03000808#32) = .pentium4 ∧
    brandIndexEntry 0#8 = .notSupported ∧ brandIndexEntry 5#8 = .reserved ∧
    BrandIndexEntry.pentium4.text = "Intel Pentium 4 processor" := by decide

theorem test_feature_reading :
    Feature.all.filter (supports 0x06888111#32) = [.fpu, .tsc, .cx8, .cmov, .clfsh, .mmx, .sse, .sse2] ∧
    supportsInstr 0x06888111#32 .fcomi = true ∧ supportsInstr 0x00008000#32 .fcmov = false ∧
    supportsInstr 0x00008000#32 .cmovcc = true ∧ Feature.all.filter (supports 0x00100400#32) = [] ∧
    featureBit 10 = .reserved ∧ featureBit 27 = .lost ∧ featureBit 18 = .named .psn := by decide

theorem test_descriptor_reading :
    descriptors ⟨0x665B5001#32, 0#32, 0#32, 0x007A7000#32⟩ =
      [0x50#8, 0x5B#8, 0x66#8, 0#8, 0#8, 0#8, 0#8, 0#8, 0#8, 0#8, 0#8, 0#8, 0x70#8, 0x7A#8, 0#8] ∧
    descriptors ⟨1#32, 0x80000000#32, 0xFFFFFFFF#32, 0x80000000#32⟩ = [0#8, 0#8, 0#8] ∧
    descriptorMeaning 0x66#8 = some (.cache 1 .data 8 4 64 false) ∧ descriptorMeaning 1#8 = none := by decide

theorem test_brand_string :
    (readBrandString (launched testCfg 0#32)).map (fun bs => (brandText bs).map fun b => Char.ofNat b.toNat) =
      some "ABCDEFGHIJKLMNOPQRSTUVWXYZabcdefghijklmnopqrstu".toList := by decide

theorem test_detection :
    detectBrandString (launched testCfg 0#32) = some ⟨true, true⟩ ∧ detection 0x80000003#32 = ⟨true, false⟩ ∧
    detection 0x665B5001#32 = ⟨false, false⟩ ∧
    chooseTechnique ⟨false, false⟩ 2#8 = .brandIndexTable ∧ chooseTechnique ⟨false, false⟩ 0#8 = .signatureTable := by
  decide

theorem test_register_parts :
    Regs.lowByte ⟨0x00000047#32, 0x756E6547#32, 0#32, 0#32⟩ .ebx = 0x47#8 ∧
    wordBytes 0x756E6547#32 = [0x47#8, 0x65#8, 0x6E#8, 0x75#8] ∧ exceptionNumber .machineCheck = some 18 ∧
    canSetAndClearIdFlag (launched testCfg 0#32) = true ∧ canSetAndClearIdFlag (launched noCpuid 0#32) = false := by
  decide

/-! ### Witnesses: states and operands that meet a statement's hypotheses -/

/-- A state like a launch whose `pc`, end and code are given. -/
def placed (pc codeEnd : Word) (code : Memory) : State :=
  { launched testCfg 0#32 with pc := pc, codeEnd := codeEnd, code := code }

theorem witness_ready : (launched testCfg 0#32).Ready ∧ (launched piiiCfg 0#32).Ready ∧ (launched pentCfg 0#32).Ready := by
  decide

theorem witness_DecodeExactlyInvertsEncode : Instr.cpuid.WellFormed = true := rfl

theorem witness_StepRunsDecodedInstruction :
    (launched testCfg 0#32).pc ≠ (launched testCfg 0#32).codeEnd ∧ (launched testCfg 0#32).Fetches 0x0F#8 0xA2#8 ∧
    decode [0x0F#8, 0xA2#8] = .ok (.cpuid, []) ∧ Instr.cpuid.WellFormed = true := by decide

/-- The three clauses at the values where they meet (V58, V6, and another opcode as high as one can stand). -/
theorem witness_FetchRefusals :
    testCfg.WellFormed ∧
    ((placed 0xFFFFFFFE#32 0#32 [(0xFFFFFFFE, 0x0F#8), (0xFFFFFFFF, 0xA2#8)]).pc ≠ 0#32 ∧
      0xFFFFFFFE#32 ≤ (placed 0xFFFFFFFE#32 0#32 []).pc ∧
      step (placed 0xFFFFFFFE#32 0#32 [(0xFFFFFFFE, 0x0F#8), (0xFFFFFFFF, 0xA2#8)]) = .refused .pcAtTop) ∧
    ((placed 0xFFFFFFFD#32 0#32 [(0xFFFFFFFD, 0x0F#8)]).pc < 0xFFFFFFFE#32 ∧
      (placed 0xFFFFFFFD#32 0#32 [(0xFFFFFFFD, 0x0F#8)]).code.read 0xFFFFFFFE = none ∧
      step (placed 0xFFFFFFFD#32 0#32 [(0xFFFFFFFD, 0x0F#8)]) = .refused .fetchOutsideCode) ∧
    ((placed 0xFFFFFFFD#32 0#32 [(0xFFFFFFFD, 0x0F#8), (0xFFFFFFFE, 0xA3#8)]).Fetches 0x0F#8 0xA3#8 ∧
      step (placed 0xFFFFFFFD#32 0#32 [(0xFFFFFFFD, 0x0F#8), (0xFFFFFFFE, 0xA3#8)]) =
        .refused (.notInOpcodeTable 0x0F#8 0xA3#8)) :=
  ⟨by decide, ⟨by decide, by decide, rfl⟩, ⟨by decide, by decide, rfl⟩, ⟨by decide, rfl⟩⟩

/-- A run that ended after its one instruction, one that faulted, one that was refused. -/
theorem witness_EndedRunsStayEnded :
    run 2 (launched testCfg 0#32) = .final ∧
    run 1 (launched noCpuid 0#32) = .fault (.exception .invalidOpcode 0x1000#32) ∧
    run 1 (placed 0xFFFFFFFE#32 0#32 []) = .refusal .pcAtTop := ⟨rfl, rfl, rfl⟩

theorem witness_IllFormedConfigurationNeverRuns :
    testCfg.WellFormed ∧ ¬ ({ testCfg with maxBasic := 4#32 } : Cfg).WellFormed ∧
    run 1 { placed 0#32 0#32 [] with cfg := { testCfg with maxBasic := 4#32 } } = .refusal .illFormedConfig :=
  ⟨by decide, by decide, rfl⟩

theorem witness_UnwrittenEaxFaults :
    (∀ x p, Fault.eaxUnwritten 0x1000#32 ≠ .exception x p) ∧
    (launchedWith testCfg none).HasCpuid ∧ (launchedWith testCfg none).eaxWritten = false := ⟨nofun, by decide, rfl⟩

/-- The end of a run comes before a fetch could be refused (V59). -/
theorem test_end_of_run : step (placed 0xFFFFFFFE#32 0xFFFFFFFE#32 []) = .refused .runEnded := rfl

theorem witness_PlacedInstructionRunsNext :
    (placed 0xFFFFFFFD#32 0#32 []).pc < 0xFFFFFFFE#32 ∧ State.reset.pc < 0xFFFFFFFE#32 := by decide

theorem witness_CpuidMasterRule :
    ((launched noCpuid 0#32).cfg.WellFormed ∧ (launched noCpuid 0#32).cfg.cpuidImplemented = false ∧
      (launched noCpuid 0#32).eaxWritten = true) ∧
    (launched testCfg 0xFFFFFFFF#32).Ready := by decide

theorem witness_CpuidFrame : ∃ t, exec .cpuid (launched testCfg 1#32) = .next t := ⟨_, rfl⟩

theorem witness_ClassificationBoundaries :
    (piiiCfg.WellFormed ∧ piiiCfg.cpuidImplemented = true ∧ piiiCfg.maxBasic = 3#32) ∧
    (testCfg.WellFormed ∧ testCfg.cpuidImplemented = true ∧ testCfg.extImplemented = true) := by decide

theorem witness_HighInputsOutOfRange :
    testCfg.WellFormed ∧ testCfg.cpuidImplemented = true ∧ 0x80000005#32 ≤ 0x80000005#32 ∧
    0x80000005#32 ≤ 0xFFFFFFFF#32 := by decide

theorem witness_ExtendedInputsOutOfRangeOnOlderFamilies :
    piiiCfg.IsOf .pentiumIII ∧ piiiCfg.cpuidImplemented = true ∧ ProcessorFamily.pentiumIII ≠ .pentium4 ∧
    ProcessorFamily.pentiumIII ≠ .intelXeon ∧ 0x80000000#32 ≤ 0x80000000#32 ∧ 0x80000004#32 ≤ 0x80000004#32 :=
  ⟨⟨rfl, by rintro m ⟨⟩; rfl, rfl, nofun⟩, by decide, by decide, by decide, by decide, by decide⟩

theorem witness_OutOfRangeInput :
    ((launched testCfg 0x80000005#32).Ready ∧ classify testCfg 0x80000005#32 = .outOfRange ∧
      testCfg.oorPolicy = .highestBasic) ∧
    ((launched piiiCfg 4#32).Ready ∧ classify piiiCfg 4#32 = .outOfRange ∧ piiiCfg.oorPolicy = .draw) := by decide

theorem witness_P4FirstOtherInputsReturnInputTwo :
    (launched testCfg 0x80000005#32).cfg = Cfg.p4first testOpen ∧ (launched testCfg 2#32).cfg = Cfg.p4first testOpen ∧
    (launched testCfg 2#32).eaxWritten = true ∧ testCfg.BrandFormat ∧ 0x80000005#32 ≠ 0#32 ∧ 0x80000005#32 ≠ 1#32 ∧ ¬ (0x80000000#32 ≤ 0x80000005#32 ∧ 0x80000005#32 ≤ 0x80000004#32) := by
  decide

/-- Inputs 0 and 1 on a ready processor, also with Intel's vendor words (inputs 0 and 1 statements, the line size, the type
and brand readings, the feature flags). -/
theorem witness_inputs_zero_and_one :
    ((launched testCfg 0#32).Ready ∧ (launched testCfg 0#32).regs.eax = 0#32 ∧
      testCfg.vendorEbx = 0x756E6547#32 ∧ testCfg.vendorEdx = 0x49656E69#32 ∧ testCfg.vendorEcx = 0x6C65746E#32) ∧
    (launched testCfg 1#32).Ready ∧ (launched testCfg 1#32).regs.eax = 1#32 ∧
    (launched testCfg 1#32).cfg = Cfg.p4first testOpen := by decide

theorem witness_FeatureFlagsReadOnIntelOnly :
    (launched testCfg 0#32).Ready ∧ (launched { testCfg with vendorEcx := 0#32 } 0#32).Ready ∧
    ¬ ({ testCfg with vendorEcx := 0#32 } : Cfg).vendorEcx = 0x6C65746E#32 := by decide

theorem witness_InputTwoReturnsCacheInformation :
    (launched testCfg 2#32).Ready ∧ 2#32 ≤ testCfg.maxBasic ∧ (launched testCfg 2#32).regs.eax = 2#32 ∧
    (launched testCfg 2#32).cfg = Cfg.p4first testOpen := by decide

theorem witness_InputThreeReturnsSerialNumber :
    ((launched piiiCfg 3#32).Ready ∧ (launched piiiCfg 3#32).regs.eax = 3#32 ∧ piiiCfg.maxBasic = 3#32) ∧
    ((launched testCfg 3#32).Ready ∧ (launched testCfg 3#32).regs.eax = 3#32 ∧ testCfg.maxBasic < 3#32) := by decide

/-- The extended inputs (maximum, signature, brand words, detection, the brand string and its text). -/
theorem witness_extended_inputs :
    (launched testCfg 0x80000000#32).Ready ∧ testCfg.extImplemented = true ∧ 0x80000001#32 ≤ testCfg.maxExt ∧
    testCfg.maxExt = 0x80000004#32 ∧ testCfg.BrandTerminated ∧
    (launched testCfg 0x80000001#32).Ready ∧ (launched testCfg 0x80000001#32).regs.eax = 0x80000001#32 ∧
    (launched testCfg 0x80000004#32).Ready ∧
    (launched testCfg 0x80000004#32).regs.eax = 0x80000002#32 + BitVec.ofNat 32 (2 : Fin 3).val ∧
    0x80000004#32 ≤ testCfg.maxExt := by decide

theorem witness_DefinedBitsAreRepeatable :
    (∃ t, exec .cpuid (launched testCfg 1#32) = .next t) ∧
    (∃ t, exec .cpuid { launched testCfg 1#32 with executions := 9 } = .next t) ∧
    classify testCfg 1#32 ≠ .outOfRange :=
  ⟨⟨_, rfl⟩, ⟨_, rfl⟩, by decide⟩

theorem witness_HighestInputsByFamily :
    testCfg.WellFormed ∧ testCfg.IsOf .pentium4 ∧ ProcessorFamily.pentium4 ≠ .earlierIntel486 :=
  ⟨by decide, ⟨rfl, by rintro m ⟨⟩; rfl, rfl, by rintro m ⟨⟩; rfl⟩, by decide⟩

/-- Two different states that agree on the processor, EAX and the counter. -/
theorem witness_ResultsDependOnEaxAlone :
    (launched testCfg 1#32).Ready ∧ (loadEax 1#32 (placed 7#32 9#32 [])).Ready ∧ (placed 7#32 9#32 []).cfg = testCfg ∧
    (loadEax 1#32 (placed 7#32 9#32 [])).regs.eax = (launched testCfg 1#32).regs.eax ∧
    (placed 7#32 9#32 []).executions = (launched testCfg 1#32).executions := by decide

/-- A launch with EAX and one without (both statements about launches). -/
theorem witness_launches :
    State.launch (launchOf testCfg none) = .ok (launchedWith testCfg none) ∧
    State.launch (launchOf testCfg (some 1#32)) = .ok (launched testCfg 1#32) := ⟨rfl, rfl⟩

theorem witness_StepKeepsLaunchInvariant :
    (launched testCfg 0#32).LaunchInv 0x1000 (launched testCfg 0#32).executions testCfg [(0x1000, 0x0F#8), (0x1001, 0xA2#8)] ∧
    ∃ t, step (launched testCfg 0#32) = .next t :=
  ⟨⟨rfl, by decide, rfl, rfl, rfl⟩, ⟨_, rfl⟩⟩

end Sys2Proof.Tests
end

/-! # Proofs: the family of 00_scope

What the meaning and the step of `CPUID` can answer, said as equivalences; the class of an input and the bits of a result
that no draw reaches; what a launch begins with; and, last, the obligations they settle. -/

namespace Sys2Proof.Machine

/-! ### The outcomes of the meaning and of the step -/

/-- The meaning of `CPUID` refuses nothing but a configuration the document does not cover (R8). -/
theorem execCpuid_refused_iff {s : State} {r : Refusal} :
    execCpuid s = .refused r ↔ r = .illFormedConfig ∧ ¬ s.cfg.WellFormed := by
  rcases execCpuid_cases s with ⟨hw, hx⟩ | ⟨hw, -, hx⟩ | ⟨⟨hw, -⟩, -, hx⟩ | ⟨⟨⟨hw, -⟩, -⟩, q, -, hx⟩
  · rw [hx, Host.Outcome.refused.injEq, eq_comm, and_iff_left hw]
  · exact iff_of_false (by simp [hx]) fun h => h.2 hw
  · exact iff_of_false (by simp [hx]) fun h => h.2 hw
  · exact iff_of_false (by simp [hx]) fun h => h.2 hw

/-- The fault `CPUID` ends in where it faults: #UD comes before the one on an unwritten EAX (log 8). -/
def cpuidFault (s : State) : Fault :=
  if s.cfg.cpuidImplemented = false then .exception .invalidOpcode s.pc else .eaxUnwritten s.pc

theorem execCpuid_fault_iff {s : State} {f : Fault} :
    execCpuid s = .fault f ↔
      s.cfg.WellFormed ∧ (s.cfg.cpuidImplemented = false ∨ s.eaxWritten = false) ∧ f = cpuidFault s := by
  rcases execCpuid_cases s with ⟨hw, hx⟩ | ⟨hw, hi, hx⟩ | ⟨⟨hw, hi⟩, he, hx⟩ | ⟨⟨⟨hw, hi⟩, he⟩, q, -, hx⟩
  · exact iff_of_false (by simp [hx]) fun h => hw h.1
  · rw [hx, Host.Outcome.fault.injEq, cpuidFault, if_pos hi, and_iff_right hw, and_iff_right (.inl hi), eq_comm]
  · rw [hx, Host.Outcome.fault.injEq, cpuidFault, if_neg (by simp [hi]), and_iff_right hw, and_iff_right (.inr he),
      eq_comm]
  · exact iff_of_false (by simp [hx]) fun h => by simp [hi, he] at h

/-- In a ready state, and in no other, `CPUID` completes. -/
theorem execCpuid_completes_iff {s : State} : (∃ t, execCpuid s = .next t) ↔ s.Ready := by
  constructor
  · rintro ⟨t, h⟩
    exact (execCpuid_next_iff.mp h).1
  · intro hr
    obtain ⟨q, hq⟩ := Option.isSome_iff_exists.mp
      (cpuidResult_isSome (Config.draws s.executions) (inputValue s) hr.1.1 hr.1.2)
    exact ⟨_, execCpuid_ready hr hq⟩

/-- The fetch refuses by names of its own (R61, R65), neither that of R8's check nor that of the end of a run. -/
theorem fetchInstr_error {s : State} {r : Refusal} (h : fetchInstr s = .error r) :
    r ≠ .illFormedConfig ∧ r ≠ .runEnded := by
  unfold fetchInstr fetch at h
  split at h
  · rename_i hf
    split at hf
    · cases h; cases hf; simp
    · split at hf
      · cases hf
      · cases h; cases hf; simp
  · split at h
    · cases h
    · cases h; simp

/-- The four cases of a step as the host sees it, of which exactly one holds in a state. -/
theorem step_cases (s : State) :
    (¬ s.cfg.WellFormed ∧ step s = .refused .illFormedConfig) ∨
    (s.cfg.WellFormed ∧ s.pc = s.codeEnd ∧ step s = .refused .runEnded) ∨
    (s.cfg.WellFormed ∧ s.pc ≠ s.codeEnd ∧ ¬ s.AtCpuid ∧
      ∃ r, r ≠ .illFormedConfig ∧ r ≠ .runEnded ∧ step s = .refused r) ∨
    (s.cfg.WellFormed ∧ s.pc ≠ s.codeEnd ∧ s.AtCpuid ∧ step s = execCpuid s) := by
  rcases stepOutcome_cases s with ⟨hw, ho⟩ | ⟨hw, he, ho⟩ | ⟨hw, he, r, hf, ho⟩ | ⟨hw, he, i, hf, -⟩
  · exact .inl ⟨hw, by rw [step, ho]⟩
  · exact .inr (.inl ⟨hw, he, by rw [step, ho]⟩)
  · obtain ⟨hr, hr'⟩ := fetchInstr_error hf
    refine .inr (.inr (.inl ⟨hw, he, fun hc => ?_, r, hr, hr', by rw [step, ho]⟩))
    rw [fetchInstr_ok_iff (i := .cpuid).mpr (fetch_ok_iff.mpr hc)] at hf
    cases hf
  · cases i
    exact .inr (.inr (.inr ⟨hw, he, fetch_ok_iff.mp (fetchInstr_ok_iff.mp hf), step_exec he hf⟩))

theorem step_illFormedConfig_iff {s : State} : step s = .refused .illFormedConfig ↔ ¬ s.cfg.WellFormed := by
  rcases step_cases s with ⟨hw, hs⟩ | ⟨hw, -, hs⟩ | ⟨hw, -, -, r, hr, -, hs⟩ | ⟨hw, -, -, hs⟩
  · exact iff_of_true hs hw
  · exact iff_of_false (by simp [hs]) (not_not.mpr hw)
  · exact iff_of_false (by simp [hs, hr]) (not_not.mpr hw)
  · rw [hs, execCpuid_refused_iff, and_iff_right rfl]

theorem step_runEnded_iff {s : State} : step s = .refused .runEnded ↔ s.cfg.WellFormed ∧ s.pc = s.codeEnd := by
  rcases step_cases s with ⟨hw, hs⟩ | ⟨hw, he, hs⟩ | ⟨hw, he, -, r, -, hr, hs⟩ | ⟨hw, he, -, hs⟩
  · exact iff_of_false (by simp [hs]) fun h => hw h.1
  · exact iff_of_true hs ⟨hw, he⟩
  · exact iff_of_false (by simp [hs, hr]) fun h => he h.2
  · exact iff_of_false (by simp [hs, execCpuid_refused_iff]) fun h => he h.2

/-- A step faults exactly where it fetches `CPUID` in a well-formed configuration and `CPUID` faults. -/
theorem step_fault_iff {s : State} {f : Fault} :
    step s = .fault f ↔
      (s.cfg.WellFormed ∧ s.pc ≠ s.codeEnd ∧ s.AtCpuid ∧
        (s.cfg.cpuidImplemented = false ∨ s.eaxWritten = false)) ∧ f = cpuidFault s := by
  rcases step_cases s with ⟨hw, hs⟩ | ⟨-, he, hs⟩ | ⟨-, -, hc, r, -, -, hs⟩ | ⟨hw, he, hc, hs⟩
  · exact iff_of_false (by simp [hs]) fun h => hw h.1.1
  · exact iff_of_false (by simp [hs]) fun h => h.1.2.1 he
  · exact iff_of_false (by simp [hs]) fun h => hc h.1.2.2.1
  · rw [hs, execCpuid_fault_iff, and_iff_right hw, and_iff_right hw, and_iff_right he, and_iff_right hc]

/-- A step answers a next state exactly where it fetches `CPUID` before the end of the run and `CPUID` completes. -/
theorem step_next_iff_execCpuid {s t : State} :
    step s = .next t ↔ s.pc ≠ s.codeEnd ∧ s.AtCpuid ∧ execCpuid s = .next t :=
  step_next_iff.trans (and_congr_right fun _ => and_congr_left fun _ => fetch_ok_iff)

/-! ### Configurations and launches -/

/-- The format of R173, "ASCII" read as below 80H (log 31), in numbers. -/
theorem brandFormatted_iff_toNat {c : Cfg} :
    c.brandFormatted = true ↔
      (∀ i : Fin 48, i.val < 47 → (c.brandByte i).toNat < 128) ∧ c.brandByte 47 = 0#8 :=
  brandFormatted_iff

/-- A brand string of null bytes is an empty string in the format of R173. -/
theorem brandFormatted_of_zero {c : Cfg} (h : c.brandWords = Vector.replicate 12 0#32) : c.brandFormatted = true := by
  have hz (i : Fin 48) : c.brandByte i = 0#8 := by simp [Cfg.brandByte, byteOf, h]
  exact brandFormatted_iff_toNat.mpr ⟨fun i _ => by rw [hz]; decide, hz 47⟩

/-- A launch is refused in no other way than by the check of R8. -/
theorem launch_error_iff {l : Launch} {r : Refusal} :
    State.launch l = .error r ↔ ¬ l.cfg.WellFormed ∧ r = .illFormedConfig := by
  by_cases hw : l.cfg.WellFormed
  · rw [State.launch, if_pos hw]
    exact iff_of_false nofun fun h => h.1 hw
  · rw [State.launch, if_neg hw, Except.error.injEq, eq_comm, and_iff_right hw]

theorem reset_cfg_wellFormed : State.reset.cfg.WellFormed :=
  p4first_wellFormed_iff.mpr fun _ => brandFormatted_of_zero rfl

/-! ### The class of an input, and the bits that no draw reaches -/

theorem classify_outOfRange {c : Cfg} {n : Word} (h : ¬ n ≤ c.maxBasic)
    (hx : ¬ (c.extImplemented = true ∧ 0x80000000#32 ≤ n ∧ n ≤ c.maxExt)) : classify c n = .outOfRange := by
  rw [classify, if_neg h, if_neg hx]

/-- An input that is not out of range selects its own information (R80). -/
theorem cpuidResult_of_recognised {c : Cfg} {n : Word} (d : Draws) (h : classify c n ≠ .outOfRange) :
    cpuidResult c d n = info c d n := by
  by_cases hb : n ≤ c.maxBasic
  · exact cpuidResult_of_basic hb
  · by_cases hx : c.extImplemented = true ∧ 0x80000000#32 ≤ n ∧ n ≤ c.maxExt
    · rw [cpuidResult, classify_extended hb hx.1 hx.2.1 hx.2.2]
    · exact absurd (classify_outOfRange hb hx) h

/-- Outside its reserved fields the version word is made of the configuration alone. -/
theorem versionInfo_masked (c : Cfg) (d : Draws) :
    versionInfo c d &&& 0x00FF3FFF#32 =
      0#8 ++ c.extFamily ++ c.extModel ++ 0#2 ++ c.ptype ++ c.family ++ c.model ++ c.stepping := by
  have hmask : 0x00FF3FFF#32 =
      0#8 ++ BitVec.allOnes 4 ++ BitVec.allOnes 4 ++ 0#2 ++ BitVec.allOnes 2 ++ BitVec.allOnes 4 ++
        BitVec.allOnes 4 ++ BitVec.allOnes 4 := by decide
  rw [versionInfo, hmask]
  refine BitVec.and_append.trans ?_
  simp only [BitVec.and_append, BitVec.and_zero, BitVec.and_allOnes]

theorem miscInfo_masked (c : Cfg) (d : Draws) :
    miscInfo c d &&& 0xFF00FFFF#32 = c.apicId ++ 0#8 ++ c.clflushLine ++ c.brandIndex := by
  have hmask : 0xFF00FFFF#32 = BitVec.allOnes 8 ++ 0#8 ++ BitVec.allOnes 8 ++ BitVec.allOnes 8 := by decide
  rw [miscInfo, hmask]
  refine BitVec.and_append.trans ?_
  simp only [BitVec.and_append, BitVec.and_zero, BitVec.and_allOnes]

theorem featureFlags_masked (c : Cfg) (d : Draws) :
    featureFlags c d &&& 0xFFEFFBFF#32 =
      c.features.extractLsb' 21 11 ++ 0#1 ++ c.features.extractLsb' 11 9 ++ 0#1 ++ c.features.extractLsb' 0 10 := by
  have hmask : 0xFFEFFBFF#32 =
      BitVec.allOnes 11 ++ 0#1 ++ BitVec.allOnes 9 ++ 0#1 ++ BitVec.allOnes 10 := by decide
  rw [featureFlags, hmask]
  refine BitVec.and_append.trans ?_
  simp only [BitVec.and_append, BitVec.and_zero, BitVec.and_allOnes]

/-- The information of an input, cut down to the bits the spec determines, is the same for any two draws (R94). -/
theorem info_masked_eq (c : Cfg) (d d' : Draws) (n : Word) :
    (info c d n).map (Regs.masked (definedMask n)) = (info c d' n).map (Regs.masked (definedMask n)) := by
  by_cases h1 : n = 1#32
  · subst h1
    simp [definedMask, Regs.masked, infoVersion, versionInfo_masked, miscInfo_masked, featureFlags_masked]
  by_cases h3 : n = 3#32
  · subst h3
    simp [definedMask, Regs.masked, infoSerial]
  by_cases hm : n = 0x80000000#32
  · subst hm
    simp [definedMask, Regs.masked, infoExtMax]
  by_cases hs : n = 0x80000001#32
  · subst hs
    simp [definedMask, Regs.masked]
  · have hfree : info c d n = info c d' n := by simp only [info, if_neg h1, if_neg h3, if_neg hm, if_neg hs]
    rw [hfree]

/-! ### The obligations -/

/-- Settles O51: a step that answers a next state completes `CPUID`, which the fetch lets stand only below FFFFFFFEH, so
that `pc + 2` does not wrap. -/
theorem stepKeepsLaunchInvariant : Obligations.StepKeepsLaunchInvariant := by
  unfold Obligations.StepKeepsLaunchInvariant
  rintro base start c m s t ⟨hcfg, hw, hcode, hwf, hpc⟩ hstep
  obtain ⟨-, ⟨hlt, -⟩, hexec⟩ := step_next_iff_execCpuid.mp hstep
  obtain ⟨-, q, -, rfl⟩ := execCpuid_next_iff.mp hexec
  have hadvance : (s.pc + 2#32).toNat = s.pc.toNat + 2 := by bv_omega
  refine ⟨hcfg, hw, hcode, hwf, ?_⟩
  rw [completeWith_pc, completeWith_executions, hadvance]
  omega

/-- Settles O5, from the equivalence that each outcome of a step has. -/
theorem stepOutcomesCharacterised : Obligations.StepOutcomesCharacterised := by
  unfold Obligations.StepOutcomesCharacterised
  intro s
  refine ⟨step_illFormedConfig_iff, step_runEnded_iff, ?_, ?_, fun f h => (step_fault_iff.mp h).2, fun t h => ?_⟩
  · simp only [step_fault_iff, exists_and_left, exists_eq, and_true]
  · simp only [step_next_iff_execCpuid, exists_and_left, execCpuid_completes_iff]
  · obtain ⟨-, -, hexec⟩ := step_next_iff_execCpuid.mp h
    obtain ⟨-, q, -, rfl⟩ := execCpuid_next_iff.mp hexec
    exact ⟨hexec, rfl⟩

/-- Settles O10: the meaning refuses an ill-formed configuration and no other, and `Cfg.WellFormed` is the bounds of R8 with
the format of R173. -/
theorem refusedExactlyWhenConfigIllFormed : Obligations.RefusedExactlyWhenConfigIllFormed := by
  unfold Obligations.RefusedExactlyWhenConfigIllFormed
  intro s r
  refine execCpuid_refused_iff.trans (and_congr_right fun _ => not_congr ?_)
  rw [Cfg.WellFormed, Cfg.BrandFormat, brandFormatted_iff_toNat]
  rfl

/-- Settles O14, by the three branches of `classify`. -/
theorem inputClassification : Obligations.InputClassification := by
  unfold Obligations.InputClassification
  intro c n
  simp only [← BitVec.le_def, show 2 ^ 31 = (0x80000000#32).toNat from rfl]
  by_cases hb : n ≤ c.maxBasic
  · simp [classify_basic hb, hb]
  · by_cases hx : c.extImplemented = true ∧ 0x80000000#32 ≤ n ∧ n ≤ c.maxExt
    · simp [classify_extended hb hx.1 hx.2.1 hx.2.2, hb, hx]
    · simp only [classify_outOfRange hb hx, hb, hx, reduceCtorEq, not_false_eq_true, and_self, and_false]

/-- Settles O27: input 2 is basic, and R8 bounds the count in AL by 1. -/
theorem inputTwoReturnsCacheInformation : Obligations.InputTwoReturnsCacheInformation := by
  unfold Obligations.InputTwoReturnsCacheInformation
  intro s hr hmax heax
  have hq : cpuidResult s.cfg (Config.draws s.executions) (inputValue s) = some (infoCaches s.cfg) := by
    rw [inputValue, heax, cpuidResult_of_basic hmax, info_caches]
  have hexec := execCpuid_ready hr hq
  obtain ⟨⟨⟨-, -, hcount, -⟩, -⟩, -⟩ := hr
  refine ⟨_, hexec, rfl, ?_⟩
  rw [completeWith_regs, repeatCount, infoCaches, hcount hmax]
  rfl

/-- Settles O32: both executions return the information of the one input, which under the mask no draw reaches. -/
theorem definedBitsAreRepeatable : Obligations.DefinedBitsAreRepeatable := by
  unfold Obligations.DefinedBitsAreRepeatable
  intro s s' t t' ht ht' hcfg heax hclass
  obtain ⟨-, q, hq, rfl⟩ := execCpuid_next_iff.mp ht
  obtain ⟨-, q', hq', rfl⟩ := execCpuid_next_iff.mp ht'
  rw [inputValue, cpuidResult_of_recognised _ hclass] at hq
  rw [inputValue, ← hcfg, ← heax, cpuidResult_of_recognised _ hclass] at hq'
  have hmasked := info_masked_eq s.cfg (Config.draws s.executions) (Config.draws s'.executions) s.regs.eax
  rw [hq, hq'] at hmasked
  exact Option.some.inj hmasked

/-- Settles O56: the launch places its bytes in an empty memory and copies the rest. -/
theorem launchLoadsWhatItIsGiven : Obligations.LaunchLoadsWhatItIsGiven := by
  unfold Obligations.LaunchLoadsWhatItIsGiven
  intro l s h
  obtain ⟨-, rfl⟩ := launch_ok_iff.mp h
  have hread := Memory.read_writeBytes l.code [] l.codeBase.toNat
  refine ⟨hread, rfl, rfl, rfl, rfl, rfl, fun v hv => ?_, fun hn => ?_⟩
  · simp [hv]
  · simp [hn]

/-- Settles O48: the bounds of R8 are met by the fields that R7 fixes, which leaves the format of R173. -/
theorem p4FirstIsCovered : Obligations.P4FirstIsCovered := by
  unfold Obligations.P4FirstIsCovered
  intro o
  have hrow : (Cfg.p4first o).IsOf .pentium4 := ⟨rfl, by rintro m ⟨⟩; rfl, rfl, by rintro m ⟨⟩; rfl⟩
  have hformat : (Cfg.p4first o).BrandFormat ↔ (Cfg.p4first o).brandFormatted = true := forall_prop_of_true rfl
  exact ⟨hrow, rfl, p4first_wellFormed_iff.trans (hformat.trans brandFormatted_iff_toNat)⟩

/-- Settles O50: the processor at reset is well formed, its brand string being empty, and a launch checks its own. -/
theorem launchEstablishesInvariant : Obligations.LaunchEstablishesInvariant := by
  unfold Obligations.LaunchEstablishesInvariant
  refine ⟨⟨rfl, reset_cfg_wellFormed, rfl, rfl, rfl⟩, fun l s h => ?_⟩
  have hwf := launch_wf h
  obtain ⟨hw, rfl⟩ := launch_ok_iff.mp h
  exact ⟨⟨rfl, hw, rfl, hwf, rfl⟩, rfl, rfl⟩

/-- Settles O53: the launch checks the configuration, and so does a run's first step, before all else. -/
theorem illFormedConfigurationNeverRuns : Obligations.IllFormedConfigurationNeverRuns := by
  unfold Obligations.IllFormedConfigurationNeverRuns
  refine ⟨fun l => ?_, fun l r h => (launch_error_iff.mp h).2, fun n s hw => ?_⟩
  · simp only [launch_ok_iff, exists_and_left, exists_eq', and_true]
  · rw [run, stepOutcome_illFormed hw]

end Sys2Proof.Machine

/-! # Proofs: the family of 10_state

Why a fetch or a step is refused; what `CPUID` completes with, by the class of its input,
and what it faults with; the ID flag; and, last, the obligations they settle. -/

namespace Sys2Proof.Machine

/-! ### The refusals of the fetch and of the step -/

theorem fetch_atTop {s : State} (h : 0xFFFFFFFE#32 ≤ s.pc) : fetch s = .error .pcAtTop := by
  rw [fetch, if_pos h]

theorem fetch_outsideCode {s : State} (h : s.pc < 0xFFFFFFFE#32)
    (hn : s.code.read s.pc.toNat = none ∨ s.code.read (s.pc.toNat + 1) = none) :
    fetch s = .error .fetchOutsideCode := by
  rw [fetch, if_neg (BitVec.not_le.mpr h)]
  split
  · rename_i h0 h1
    simp [h0, h1] at hn
  · rfl

theorem fetchInstr_of_fetch_error {s : State} {r : Refusal} (h : fetch s = .error r) : fetchInstr s = .error r := by
  rw [fetchInstr, h]

theorem decode_pair_notInTable {b0 b1 : Byte} (h : ¬ (b0 = 0x0F#8 ∧ b1 = 0xA2#8)) :
    decode [b0, b1] = .error (.notInTable b0 b1) := by
  rw [decode, if_neg h]

/-- Two bytes that can be fetched and are not `CPUID`'s are refused by their values (R65, R67). -/
theorem fetchInstr_notInTable {s : State} {b0 b1 : Byte} (hf : s.Fetches b0 b1)
    (h : ¬ (b0 = 0x0F#8 ∧ b1 = 0xA2#8)) : fetchInstr s = .error (.notInOpcodeTable b0 b1) := by
  simp only [fetchInstr, fetch_ok_iff.mpr hf, decode_pair_notInTable h]

/-- Before the end of the run a step is refused for what its fetch is refused for. -/
theorem step_of_fetchInstr_error {s : State} {r : Refusal} (hw : s.cfg.WellFormed) (he : s.pc ≠ s.codeEnd)
    (hf : fetchInstr s = .error r) : step s = .refused r := by
  rw [step, stepOutcome_refused hw he hf]

/-! ### What `CPUID` completes with, and what it faults with -/

theorem exec_cpuid (s : State) : exec .cpuid s = execCpuid s := rfl

/-- In a ready state the input selects four values, and `CPUID` completes with them. -/
theorem execCpuid_completes {s : State} (hr : s.Ready) :
    ∃ q, cpuidResult s.cfg (Config.draws s.executions) s.regs.eax = some q ∧
      execCpuid s = .next (completeWith q s) := by
  obtain ⟨t, ht⟩ := execCpuid_completes_iff.mpr hr
  obtain ⟨-, q, hq, rfl⟩ := execCpuid_next_iff.mp ht
  exact ⟨q, hq, ht⟩

/-- Where EAX counted as written, completing changes the registers, `pc` and the counter alone. -/
theorem completeWith_of_written {s : State} (q : Regs) (h : s.eaxWritten = true) :
    completeWith q s = { s with regs := q, pc := s.pc + 2#32, executions := s.executions + 1 } := by
  rw [completeWith, ← h]

theorem cpuidResult_of_outOfRange {c : Cfg} {n : Word} (d : Draws) (h : classify c n = .outOfRange) :
    cpuidResult c d n = outOfRangeInfo c d := by
  rw [cpuidResult, h]

theorem outOfRangeInfo_of_highestBasic {c : Cfg} (d : Draws) (h : c.oorPolicy = .highestBasic) :
    outOfRangeInfo c d = info c d c.maxBasic := by
  rw [outOfRangeInfo, h]

theorem outOfRangeInfo_of_draw {c : Cfg} (d : Draws) (h : c.oorPolicy = .draw) :
    outOfRangeInfo c d = some d.outOfRange := by
  rw [outOfRangeInfo, h]

/-- R62, R81: every register is an implicit destination. -/
theorem mem_implicitDestinations_cpuid (r : Reg) : r ∈ implicitDestinations .cpuid := by
  cases r <;> simp [implicitDestinations]

theorem cpuidFault_of_absent {s : State} (h : s.cfg.cpuidImplemented = false) :
    cpuidFault s = .exception .invalidOpcode s.pc := by
  rw [cpuidFault, if_pos h]

theorem cpuidFault_of_implemented {s : State} (h : s.cfg.cpuidImplemented = true) :
    cpuidFault s = .eaxUnwritten s.pc := by
  rw [cpuidFault, if_neg (by simp [h])]

/-! ### The ID flag -/

/-- The ID flag holds what was written exactly where the processor has `CPUID` (R25; log 6). -/
@[simp] theorem writeIdFlag_id (b : Bool) (s : State) :
    (writeIdFlag b s).eflags.id = if s.cfg.cpuidImplemented then b else s.eflags.id := by
  rw [writeIdFlag]
  split <;> rfl

/-! ### The obligations -/

/-- Settles O4: each clause is one of the ways a fetch fails, and the step passes it on. -/
theorem fetchRefusals : Obligations.FetchRefusals := by
  unfold Obligations.FetchRefusals
  intro s hw he
  refine ⟨fun htop => ?_, fun hlt hnone => ?_, fun b0 b1 hf hne => ?_⟩
  · exact step_of_fetchInstr_error hw he (fetchInstr_of_fetch_error (fetch_atTop htop))
  · exact step_of_fetchInstr_error hw he (fetchInstr_of_fetch_error (fetch_outsideCode hlt hnone))
  · exact step_of_fetchInstr_error hw he (fetchInstr_notInTable hf hne)

/-- Settles O7: what a completed `CPUID` returned is read off the three branches of `classify`, the last by the policy. -/
theorem cpuidMasterRule : Obligations.CpuidMasterRule := by
  unfold Obligations.CpuidMasterRule
  intro s hw he
  refine ⟨execCpuid_absent hw, fun hi => ?_⟩
  obtain ⟨q, hq, hexec⟩ := execCpuid_completes ⟨⟨hw, hi⟩, he⟩
  refine ⟨q, by rw [exec_cpuid, hexec, completeWith_of_written q he], ?_⟩
  by_cases hb : s.regs.eax ≤ s.cfg.maxBasic
  · rw [cpuidResult_of_basic hb] at hq
    rw [classify_basic hb]
    exact ⟨rfl, hq⟩
  · by_cases hx : s.cfg.extImplemented = true ∧ 0x80000000#32 ≤ s.regs.eax ∧ s.regs.eax ≤ s.cfg.maxExt
    · obtain ⟨hext, hlow, hhigh⟩ := hx
      rw [cpuidResult_of_extended hw hext hlow hhigh] at hq
      rw [classify_extended hb hext hlow hhigh]
      exact ⟨rfl, hq⟩
    · rw [cpuidResult_of_outOfRange _ (classify_outOfRange hb hx)] at hq
      rw [classify_outOfRange hb hx]
      cases hpol : s.cfg.oorPolicy with
      | highestBasic => rwa [outOfRangeInfo_of_highestBasic _ hpol] at hq
      | draw =>
        rw [outOfRangeInfo_of_draw _ hpol] at hq
        exact (Option.some.inj hq).symm

/-- Settles O8: a ready state completes, and completing moves `pc` on by 2. -/
theorem cpuidCompletesOnEveryInput : Obligations.CpuidCompletesOnEveryInput := by
  unfold Obligations.CpuidCompletesOnEveryInput
  intro s hr
  obtain ⟨q, -, hexec⟩ := execCpuid_completes hr
  exact ⟨_, hexec, completeWith_pc q s⟩

/-- Settles O11: the next state is a completion of a ready state, whose EAX had been written. -/
theorem cpuidFrame : Obligations.CpuidFrame := by
  unfold Obligations.CpuidFrame
  intro s t h
  obtain ⟨⟨-, hwritten⟩, q, -, rfl⟩ := execCpuid_next_iff.mp h
  exact ⟨fun r hr => absurd (mem_implicitDestinations_cpuid r) hr, hwritten.symm, rfl, rfl, rfl, fun _ => rfl⟩

/-- Settles O12: a ready state completes, and completing keeps the flags. -/
theorem cpuidAffectsNoFlag : Obligations.CpuidAffectsNoFlag := by
  unfold Obligations.CpuidAffectsNoFlag
  intro s hr
  obtain ⟨q, -, hexec⟩ := execCpuid_completes hr
  exact ⟨_, hexec, completeWith_eflags q s⟩

/-- Settles O13: the values selected in the one state are those selected in the other, the selection being a function of the
configuration, the draws and EAX. -/
theorem resultsDependOnEaxAlone : Obligations.ResultsDependOnEaxAlone := by
  unfold Obligations.ResultsDependOnEaxAlone
  intro s s' hr hr' hcfg heax hcount
  obtain ⟨q, hq, hexec⟩ := execCpuid_completes hr
  rw [← hcfg, ← heax, ← hcount] at hq
  exact ⟨_, _, hexec, execCpuid_ready hr' hq, rfl⟩

/-- Settles O54: of the two faults of `CPUID`, the one on an unwritten EAX is the one that is no exception. -/
theorem unwrittenEaxFaults : Obligations.UnwrittenEaxFaults := by
  unfold Obligations.UnwrittenEaxFaults
  intro s f hf
  constructor
  · intro h
    obtain ⟨hw, hcause, rfl⟩ := execCpuid_fault_iff.mp h
    cases hi : s.cfg.cpuidImplemented with
    | false => exact absurd (cpuidFault_of_absent hi) (hf _ _)
    | true => exact ⟨⟨hw, hi⟩, hcause.resolve_left (by simp [hi]), cpuidFault_of_implemented hi⟩
  · rintro ⟨hc, he, rfl⟩
    exact execCpuid_unwritten hc he

/-- Settles O46: with `CPUID` the flag takes both values written; without it the two looks see one value. -/
theorem idFlagTestsPresence : Obligations.IdFlagTestsPresence := by
  unfold Obligations.IdFlagTestsPresence
  intro s
  cases hi : s.cfg.cpuidImplemented <;> simp [canSetAndClearIdFlag, hi]

/-- Settles O49: the fields are those of the definition, and at reset `pc` stands at `CODE_END`. -/
theorem resetState : Obligations.ResetState := by
  unfold Obligations.ResetState
  have hend : step State.reset = .refused .runEnded := step_runEnded_iff.mpr ⟨reset_cfg_wellFormed, rfl⟩
  exact ⟨rfl, rfl, rfl, rfl, ⟨_, rfl, rfl⟩, fun _ => rfl, hend⟩

end Sys2Proof.Machine

/-! # Proofs: the family of 20_memory

What input 0 returns, and Intel's vendor words read in the byte order of R43; and, last, the obligation they settle. -/

namespace Sys2Proof.Machine

/-! ### Input 0 and the vendor string -/

/-- Input 0 is at most every `MAX_BASIC`, so no configuration takes it for out of range (R83, R100). -/
theorem cpuidResult_zero (c : Cfg) (d : Draws) : cpuidResult c d 0#32 = some (infoVendor c) := by
  rw [cpuidResult_of_basic (BitVec.le_def.mpr (Nat.zero_le _)), info_vendor]

/-- On a ready processor input 0 completes with the highest basic input and the vendor words (R100). -/
theorem execCpuid_inputZero {s : State} (hr : s.Ready) (heax : s.regs.eax = 0#32) :
    execCpuid s = .next (completeWith (infoVendor s.cfg) s) := by
  apply execCpuid_ready hr
  rw [inputValue, heax, cpuidResult_zero]

/-- Intel's vendor words, in the registers where input 0 returns them, hold the twelve bytes of R101. -/
theorem vendorString_infoVendor_of_intel {c : Cfg} (hb : c.vendorEbx = 0x756E6547#32)
    (hd : c.vendorEdx = 0x49656E69#32) (hc : c.vendorEcx = 0x6C65746E#32) :
    vendorString (infoVendor c) = genuineIntel := by
  simp only [vendorString, infoVendor, hb, hd, hc]
  decide

/-- The bytes of R101 are the ASCII codes of the twelve letters. -/
theorem genuineIntel_chars :
    genuineIntel.map (fun b => Char.ofNat b.toNat) =
      ['G', 'e', 'n', 'u', 'i', 'n', 'e', 'I', 'n', 't', 'e', 'l'] := by
  decide

/-! ### The obligation -/

/-- Settles O22: input 0 returns the vendor words, whose bytes in the order EBX, EDX, ECX spell the name. -/
theorem vendorStringIsGenuineIntel : Obligations.VendorStringIsGenuineIntel := by
  unfold Obligations.VendorStringIsGenuineIntel
  intro s hr heax hb hd hc
  refine ⟨_, execCpuid_inputZero hr heax, ?_⟩
  rw [completeWith_regs, vendorString_infoVendor_of_intel hb hd hc, genuineIntel_chars]

end Sys2Proof.Machine

/-! # Proofs: the family of 30_encoding

The decoder on bytes of the table and on all others, and its agreement with the encoder; what placing bytes at `pc` gives
the next fetch; and, last, the obligations they settle. -/

namespace Sys2Proof.Machine

/-! ### Decoding and encoding -/

/-- Every instruction's encoding decodes to it, and the bytes that follow are left over (R60, R61). -/
@[simp] theorem decode_encode_append (i : Instr) (rest : List Byte) : decode (encode i ++ rest) = .ok (i, rest) := by
  cases i with
  | cpuid => rfl

/-- Whatever the decoder accepts begins with the encoding of the instruction it answers (R65, R67). -/
theorem eq_encode_append_of_decode {bytes rest : List Byte} {i : Instr} (h : decode bytes = .ok (i, rest)) :
    bytes = encode i ++ rest := by
  match bytes with
  | [] => cases h
  | [_] => cases h
  | b0 :: b1 :: tail =>
    rw [decode] at h
    split at h
    · rename_i hbytes
      obtain ⟨rfl, rfl⟩ := hbytes
      cases h
      rfl
    · cases h

theorem decode_singleton (b : Byte) : decode [b] = .error .truncated := rfl

/-- Two first bytes that are not `CPUID`'s are rejected by name, whatever follows them (R65, R67). -/
theorem decode_cons_notInTable {b0 b1 : Byte} (rest : List Byte) (h : ¬ (b0 = 0x0F#8 ∧ b1 = 0xA2#8)) :
    decode (b0 :: b1 :: rest) = .error (.notInTable b0 b1) := by
  rw [decode, if_neg h]

/-- R71: the number 0FA2H of the opcode table is the encoding of `CPUID`, the high byte first. -/
theorem tableBytes_cpuid : tableBytes 16 0x0FA2 = encode .cpuid := by decide

theorem decodeTableWord_cpuid : decodeTableWord 16 0x0FA2 = some .cpuid := by
  rw [decodeTableWord, tableBytes_cpuid, ← List.append_nil (encode .cpuid), decode_encode_append]

/-! ### The step on bytes that can be fetched and decode -/

theorem fetchInstr_of_decode {s : State} {b0 b1 : Byte} {i : Instr} {rest : List Byte} (hf : s.Fetches b0 b1)
    (hd : decode [b0, b1] = .ok (i, rest)) : fetchInstr s = .ok i := by
  simp only [fetchInstr, fetch_ok_iff.mpr hf, hd]

/-! ### Bytes placed at `pc` -/

section Placing

variable {bytes : List Byte} {s : State}

theorem withFetchWord_cpuid (s : State) : s.withFetchWord 16 0x0FA2 = placeAtPc (encode .cpuid) s := by
  rw [State.withFetchWord, tableBytes_cpuid]

/-- Outside the bytes placed, the code memory is as before. -/
theorem placeAtPc_read_other {a : Nat} (h : a < s.pc.toNat ∨ s.pc.toNat + bytes.length ≤ a) :
    (placeAtPc bytes s).code.read a = s.code.read a := by
  rw [placeAtPc_code, Memory.read_writeBytes, if_neg (by omega)]

/-- A placed byte is read back, where its address exists. -/
theorem placeAtPc_read_placed {k : Nat} (hk : k < bytes.length) (ha : s.pc.toNat + k < 2 ^ 32) :
    (placeAtPc bytes s).code.read (s.pc.toNat + k) = bytes[k]? := by
  rw [placeAtPc_code, Memory.read_writeBytes, if_pos (by omega), Nat.add_sub_cancel_left]

/-- Below the top of the address space (R61) the next fetch finds the two bytes placed. -/
theorem placeAtPc_fetches {b0 b1 : Byte} (h : s.pc < 0xFFFFFFFE#32) : (placeAtPc [b0, b1] s).Fetches b0 b1 := by
  have hpc : s.pc.toNat < 0xFFFFFFFE := BitVec.lt_def.mp h
  exact ⟨h, placeAtPc_read_placed (k := 0) (by simp) (by omega), placeAtPc_read_placed (k := 1) (by simp) (by omega)⟩

/-- Where bytes were placed at `pc` the run has not ended (R229; log 22). -/
theorem placeAtPc_not_atEnd (h0 : 0 < bytes.length) (h1 : bytes.length < 2 ^ 32) : ¬ atEnd (placeAtPc bytes s) := by
  by_cases he : atEnd s
  · have hmoved : s.pc ≠ s.pc + BitVec.ofNat 32 bytes.length := by bv_omega
    simpa only [atEnd, placeAtPc, if_pos he] using hmoved
  · simpa only [atEnd, placeAtPc, if_neg he] using he

/-- `CPUID` placed at `pc` is what the next step runs. -/
theorem step_placeAtPc_cpuid (h : s.pc < 0xFFFFFFFE#32) :
    step (placeAtPc (encode .cpuid) s) = exec .cpuid (placeAtPc (encode .cpuid) s) :=
  step_exec (placeAtPc_not_atEnd (by decide) (by decide)) (fetchInstr_of_decode (placeAtPc_fetches h) decode_cpuid_word)

end Placing

/-! ### The obligations -/

/-- Settles O2: the encoder's bytes are accepted, and nothing else is. -/
theorem decodeExactlyInvertsEncode : Obligations.DecodeExactlyInvertsEncode := by
  unfold Obligations.DecodeExactlyInvertsEncode
  intro bytes i rest _
  constructor
  · exact eq_encode_append_of_decode
  · rintro rfl
    exact decode_encode_append i rest

/-- Settles O6: the number's bytes are `CPUID`'s, and placing them touches the code memory at two addresses alone. -/
theorem placedInstructionRunsNext : Obligations.PlacedInstructionRunsNext := by
  unfold Obligations.PlacedInstructionRunsNext
  intro s hlt
  rw [withFetchWord_cpuid]
  refine ⟨step_placeAtPc_cpuid hlt, rfl, rfl, rfl, rfl, rfl, rfl, fun a h0 h1 => placeAtPc_read_other ?_⟩
  have hlen : (encode .cpuid).length = 2 := rfl
  omega

/-- Settles O1: each rejected sequence starts with two bytes that are not the table's, but for the lone byte. -/
theorem specWordsDecode : Obligations.SpecWordsDecode :=
  ⟨decode_cpuid_word, decode_cons_notInTable [] (by decide), decode_cons_notInTable [] (by decide),
    decode_cons_notInTable [0xA2#8] (by decide), decode_cons_notInTable [0xA2#8] (by decide),
    decode_singleton 0x0F#8, decodeTableWord_cpuid⟩

/-- Settles O3: the bytes that decode are those the fetch hands on, and the step around `exec` adds nothing. -/
theorem stepRunsDecodedInstruction : Obligations.StepRunsDecodedInstruction := by
  unfold Obligations.StepRunsDecodedInstruction
  intro s b0 b1 i rest he hf hd _
  exact step_exec he (fetchInstr_of_decode hf hd)

end Sys2Proof.Machine

/-! # Proofs: the family of 40_cpuid

Where an input lies among the highest inputs of a configuration and of a processor family; what `CPUID` completes with for
each class of input; and, last, the obligations they settle. -/

namespace Sys2Proof.Machine

/-! ### The class of an input -/

theorem maxBasic_le_three {c : Cfg} (hw : c.WellFormed) (hi : c.cpuidImplemented = true) : c.maxBasic ≤ 3#32 :=
  (hw.1 hi).2

/-- Above the basic inputs, a processor without extended information recognises nothing (R83). -/
theorem classify_outOfRange_of_not_extImplemented {c : Cfg} {n : Word} (hb : c.maxBasic < n)
    (he : c.extImplemented = false) : classify c n = .outOfRange :=
  classify_outOfRange (BitVec.not_le.mpr hb) fun hx => by simp [he] at hx

/-- Between the basic and the extended inputs nothing is recognised (R83). -/
theorem classify_outOfRange_of_lt {c : Cfg} {n : Word} (hb : c.maxBasic < n) (hn : n < 0x80000000#32) :
    classify c n = .outOfRange :=
  classify_outOfRange (BitVec.not_le.mpr hb) fun hx => BitVec.not_le.mpr hn hx.2.1

/-- Above both highest inputs nothing is recognised (R83). -/
theorem classify_outOfRange_of_maxExt_lt {c : Cfg} {n : Word} (hb : c.maxBasic < n) (hx : c.maxExt < n) :
    classify c n = .outOfRange :=
  classify_outOfRange (BitVec.not_le.mpr hb) fun h => BitVec.not_le.mpr hx h.2.2

/-- R8 keeps the basic inputs below the extended ones, so that no extended input is taken for basic. -/
theorem classify_extended_of_wellFormed {c : Cfg} {n : Word} (hw : c.WellFormed) (he : c.extImplemented = true)
    (hlow : 0x80000000#32 ≤ n) (hhigh : n ≤ c.maxExt) : classify c n = .extended n := by
  have hbasic := maxBasic_le_three hw (hw.2.1 he).1
  exact classify_extended (by bv_omega) he hlow hhigh

/-! ### Processor families -/

theorem ProcessorFamily.maxBasic_le_three {f : ProcessorFamily} {m : Word} (h : f.maxBasic = some m) : m ≤ 3#32 := by
  cases f <;> cases h <;> decide

/-- R84: extended information exists on Pentium 4 and Intel Xeon alone. -/
theorem ProcessorFamily.maxExt_eq (f : ProcessorFamily) :
    f.maxExt = if f = .pentium4 ∨ f = .intelXeon then some 0x80000004#32 else none := by
  cases f <;> rfl

theorem ProcessorFamily.maxBasic_isSome_iff {f : ProcessorFamily} :
    f.maxBasic.isSome = true ↔ f ≠ .earlierIntel486 := by
  cases f <;> decide

theorem maxBasic_le_three_of_isOf {c : Cfg} {f : ProcessorFamily} (hf : c.IsOf f) (hi : c.cpuidImplemented = true) :
    c.maxBasic ≤ 3#32 := by
  obtain ⟨himpl, hbasic, -⟩ := hf
  obtain ⟨m, hm⟩ := Option.isSome_iff_exists.mp (himpl.symm.trans hi)
  rw [hbasic m hm]
  exact ProcessorFamily.maxBasic_le_three hm

theorem not_extImplemented_of_isOf {c : Cfg} {f : ProcessorFamily} (hf : c.IsOf f) (h4 : f ≠ .pentium4)
    (hx : f ≠ .intelXeon) : c.extImplemented = false := by
  obtain ⟨-, -, hext, -⟩ := hf
  rw [hext, ProcessorFamily.maxExt_eq, if_neg (not_or.mpr ⟨h4, hx⟩), Option.isSome_none]

theorem maxExt_of_isOf {c : Cfg} {f : ProcessorFamily} (hf : c.IsOf f) (h : f = .pentium4 ∨ f = .intelXeon) :
    c.extImplemented = true ∧ c.maxExt = 0x80000004#32 := by
  obtain ⟨-, -, hext, hmax⟩ := hf
  have hrow : f.maxExt = some 0x80000004#32 := by rw [ProcessorFamily.maxExt_eq, if_pos h]
  exact ⟨by rw [hext, hrow, Option.isSome_some], hmax _ hrow⟩

/-! ### What `CPUID` completes with, by the class of its input -/

section Completion

variable {s : State} {q : Regs}

theorem execCpuid_of_basic (hr : s.Ready) (hmax : s.regs.eax ≤ s.cfg.maxBasic)
    (hq : info s.cfg (Config.draws s.executions) s.regs.eax = some q) : execCpuid s = .next (completeWith q s) :=
  execCpuid_ready hr ((cpuidResult_of_basic hmax).trans hq)

theorem execCpuid_of_extended (hr : s.Ready) (he : s.cfg.extImplemented = true) (hlow : 0x80000000#32 ≤ s.regs.eax)
    (hhigh : s.regs.eax ≤ s.cfg.maxExt) (hq : info s.cfg (Config.draws s.executions) s.regs.eax = some q) :
    execCpuid s = .next (completeWith q s) :=
  execCpuid_ready hr ((cpuidResult_of_extended hr.1.1 he hlow hhigh).trans hq)

/-- Where extended information exists, R8 has the first extended input recognised (R170). -/
theorem execCpuid_extMax (hr : s.Ready) (he : s.cfg.extImplemented = true) (heax : s.regs.eax = 0x80000000#32) :
    execCpuid s = .next (completeWith (infoExtMax s.cfg (Config.draws s.executions)) s) := by
  have hmax : 0x80000000#32 ≤ s.cfg.maxExt := (hr.1.1.2.1 he).2.1
  refine execCpuid_of_extended hr he ?_ ?_ ?_ <;> rw [heax]
  · exact BitVec.le_refl _
  · exact hmax
  · exact info_extMax _ _

end Completion

/-- What was in EAX before a completion leaves no trace. -/
@[simp] theorem completeWith_loadEax (q : Regs) (n : Word) (s : State) :
    completeWith q (loadEax n s) = completeWith q s := rfl

/-- With `CPUID` and EAX loaded the state is ready. -/
theorem loadEax_ready {s : State} (n : Word) (h : s.HasCpuid) : (loadEax n s).Ready := ⟨h, rfl⟩

/-- `P4FIRST` recognises the basic inputs 0, 1 and 2, and for an out-of-range input returns what 2 returns (R7, R86). -/
theorem cpuidResult_p4first {o : P4Open} {n : Word} (d : Draws) (h0 : n ≠ 0#32) (h1 : n ≠ 1#32)
    (hx : ¬ (0x80000000#32 ≤ n ∧ n ≤ 0x80000004#32)) :
    cpuidResult (Cfg.p4first o) d n = some (infoCaches (Cfg.p4first o)) := by
  by_cases h2 : n = 2#32
  · subst h2
    rw [cpuidResult_of_basic (BitVec.le_refl 2#32), info_caches]
  · have hb : ¬ n ≤ (Cfg.p4first o).maxBasic := by simp only [Cfg.p4first]; bv_omega
    have hclass : classify (Cfg.p4first o) n = .outOfRange := classify_outOfRange hb fun h => hx h.2
    rw [cpuidResult_of_outOfRange d hclass, outOfRangeInfo_of_highestBasic d rfl]
    exact info_caches _ _

theorem p4first_ready {s : State} {o : P4Open} (hcfg : s.cfg = Cfg.p4first o) (hb : s.cfg.BrandFormat)
    (he : s.eaxWritten = true) : s.Ready := by
  rw [hcfg] at hb
  refine ⟨⟨?_, ?_⟩, he⟩ <;> rw [hcfg]
  · exact p4first_wellFormed_iff.mpr hb
  · rfl

/-! ### The obligations -/

/-- Settles O9: of the two faults of `CPUID`, the exception is the one on a processor without it. -/
theorem invalidOpcodeExactlyWithoutCpuid : Obligations.InvalidOpcodeExactlyWithoutCpuid := by
  unfold Obligations.InvalidOpcodeExactlyWithoutCpuid
  intro s x p
  refine execCpuid_fault_iff.trans (and_congr_right fun _ => ?_)
  cases hi : s.cfg.cpuidImplemented with
  | false => simp [cpuidFault_of_absent hi]
  | true => simp [cpuidFault_of_implemented hi]

/-- Settles O15: one above each highest input does not wrap, R8 bounding both. -/
theorem classificationBoundaries : Obligations.ClassificationBoundaries := by
  unfold Obligations.ClassificationBoundaries
  intro c hw hi
  have hbasic := maxBasic_le_three hw hi
  refine ⟨classify_basic (BitVec.le_refl _), classify_outOfRange_of_lt (by bv_omega) (by bv_omega), fun he => ?_⟩
  obtain ⟨-, hlow, hhigh⟩ := hw.2.1 he
  exact ⟨classify_extended_of_wellFormed hw he hlow (BitVec.le_refl _),
    classify_outOfRange_of_maxExt_lt (by bv_omega) (by bv_omega)⟩

/-- Settles O17: the family's highest basic input is at most 3, and it has no extended information. -/
theorem extendedInputsOutOfRangeOnOlderFamilies : Obligations.ExtendedInputsOutOfRangeOnOlderFamilies := by
  unfold Obligations.ExtendedInputsOutOfRangeOnOlderFamilies
  intro c f n hf hi h4 hx hlow _
  have hbasic := maxBasic_le_three_of_isOf hf hi
  exact classify_outOfRange_of_not_extImplemented (by bv_omega) (not_extImplemented_of_isOf hf h4 hx)

/-- Settles O18: what a ready state completes with is, for this class of input, read off the policy. -/
theorem outOfRangeInput : Obligations.OutOfRangeInput := by
  unfold Obligations.OutOfRangeInput
  intro s hr hc
  obtain ⟨q, hq, hexec⟩ := execCpuid_completes hr
  rw [cpuidResult_of_outOfRange _ hc] at hq
  refine ⟨_, hexec, fun hpol => ?_, fun hpol => ?_⟩
  · rwa [outOfRangeInfo_of_highestBasic _ hpol] at hq
  · rw [outOfRangeInfo_of_draw _ hpol] at hq
    exact (Option.some.inj hq).symm

/-- Settles O19: both inputs select the information of `MAX_BASIC`, and a completion overwrites the EAX they differ in. -/
theorem highestBasicPolicyActsAsMaxBasic : Obligations.HighestBasicPolicyActsAsMaxBasic := by
  unfold Obligations.HighestBasicPolicyActsAsMaxBasic
  intro s hr hpol hc
  obtain ⟨q, hq, hexec⟩ := execCpuid_completes hr
  rw [cpuidResult_of_outOfRange _ hc, outOfRangeInfo_of_highestBasic _ hpol] at hq
  have hloaded := execCpuid_of_basic (loadEax_ready s.cfg.maxBasic hr.1) (BitVec.le_refl _) hq
  rw [completeWith_loadEax] at hloaded
  exact ⟨_, hexec, hloaded⟩

/-- Settles O20: input 2 and the out-of-range inputs of `P4FIRST` select the same four words, which R7 fixes. -/
theorem p4FirstOtherInputsReturnInputTwo : Obligations.P4FirstOtherInputsReturnInputTwo := by
  unfold Obligations.P4FirstOtherInputsReturnInputTwo
  intro s o hcfg hformat he h0 h1 hx
  have hq := cpuidResult_p4first (o := o) (Config.draws s.executions) h0 h1 hx
  rw [← hcfg] at hq
  refine ⟨_, execCpuid_ready (p4first_ready hcfg hformat he) hq, ?_⟩
  rw [completeWith_regs, hcfg]
  rfl

/-- Settles O28: input 3 is basic where `MAX_BASIC` reaches it, and otherwise between the basic and the extended inputs. -/
theorem inputThreeReturnsSerialNumber : Obligations.InputThreeReturnsSerialNumber := by
  unfold Obligations.InputThreeReturnsSerialNumber
  intro s hr heax
  refine ⟨fun hmax => ?_, fun hlt => ?_⟩
  · have hq : info s.cfg (Config.draws s.executions) s.regs.eax =
        some (infoSerial s.cfg (Config.draws s.executions)) := by rw [heax, info_serial]
    have hle : s.regs.eax ≤ s.cfg.maxBasic := by rw [heax, hmax]; exact BitVec.le_refl _
    exact ⟨_, execCpuid_of_basic hr hle hq, rfl, rfl, rfl, rfl⟩
  · rw [heax]
    exact classify_outOfRange_of_lt hlt (by decide)

/-- Settles O30: the input is extended, and its information is the draws of the execution. -/
theorem extendedSignatureIsFourDraws : Obligations.ExtendedSignatureIsFourDraws := by
  unfold Obligations.ExtendedSignatureIsFourDraws
  intro s hr he hmax heax
  have hlow : 0x80000000#32 ≤ s.regs.eax := by rw [heax]; decide
  have hhigh : s.regs.eax ≤ s.cfg.maxExt := by rwa [heax]
  have hq : info s.cfg (Config.draws s.executions) s.regs.eax =
      some (infoExtSignature (Config.draws s.executions)) := by rw [heax, info_extSignature]
  refine ⟨?_, _, execCpuid_of_extended hr he hlow hhigh hq, rfl, rfl⟩
  rw [classify_extended_of_wellFormed hr.1.1 he hlow hhigh, heax]

/-- Settles O47: inputs 0 and 80000000H return `MAX_BASIC` and `MAX_EXT`, which the family's row fixes. -/
theorem highestInputsByFamily : Obligations.HighestInputsByFamily := by
  unfold Obligations.HighestInputsByFamily
  intro s f hw hf hne
  have hhas : s.HasCpuid := ⟨hw, hf.1.trans (ProcessorFamily.maxBasic_isSome_iff.mpr hne)⟩
  refine ⟨⟨_, execCpuid_inputZero (loadEax_ready 0#32 hhas) rfl, ?_⟩, fun hnew => ?_⟩
  · obtain ⟨-, hbasic, -⟩ := hf
    cases f with
    | earlierIntel486 => exact absurd rfl hne
    | _ => exact hbasic _ rfl
  · obtain ⟨hext, hmax⟩ := maxExt_of_isOf hf hnew
    exact ⟨_, execCpuid_extMax (loadEax_ready _ hhas) hext rfl, hmax⟩

end Sys2Proof.Machine

/-! # Proofs: the family of 41_cpuid_basic

What input 1 returns and the fields software reads in it; the bits of the feature table; the bytes of a register, the
vendor test and the descriptors; and, last, the obligations they settle. -/

namespace Sys2Proof.Machine

/-! ### Input 1 -/

/-- R8 bounds `MAX_BASIC` by 1 from below, so input 1 is basic on every processor that has `CPUID` (R83). -/
theorem cpuidResult_one {c : Cfg} (d : Draws) (hw : c.WellFormed) (hi : c.cpuidImplemented = true) :
    cpuidResult c d 1#32 = some (infoVersion c d) := by
  rw [cpuidResult_of_basic (hw.1 hi).1, info_version]

/-- On a ready processor input 1 completes with the version information and this execution's draws (R103). -/
theorem execCpuid_inputOne {s : State} (hr : s.Ready) (heax : s.regs.eax = 1#32) :
    execCpuid s = .next (completeWith (infoVersion s.cfg (Config.draws s.executions)) s) := by
  apply execCpuid_ready hr
  rw [inputValue, heax, cpuidResult_one _ hr.1.1 hr.1.2]

/-! ### The fields software reads after input 1 -/

section Fields

variable (c : Cfg) (d : Draws)

@[simp] theorem ptypeField_versionInfo : ptypeField (versionInfo c d) = c.ptype := by
  obtain ⟨-, -, -, h, -⟩ := versionInfo_fields c d
  exact h

/-- R110 reads the family number from two fields that the configuration fills. -/
theorem familyNumber_versionInfo : familyNumber (versionInfo c d) = identificationNumber c.family c.extFamily := by
  obtain ⟨-, -, hfamily, -, -, -, hext, -⟩ := versionInfo_fields c d
  rw [familyNumber, familyField, extFamilyField, hfamily, hext]

/-- The type, family and model fields of R104 are adjacent. -/
theorem versionInfo_ptype_family_model : (versionInfo c d).extractLsb' 4 10 = c.ptype ++ c.family ++ c.model := by
  obtain ⟨-, hmodel, hfamily, hptype, -⟩ := versionInfo_fields c d
  rw [← hptype, ← hfamily, ← hmodel, BitVec.extractLsb'_append_extractLsb'_eq_extractLsb' (by rfl),
    BitVec.extractLsb'_append_extractLsb'_eq_extractLsb' (by rfl)]

/-- Below them stands the stepping ID (R104). -/
theorem versionInfo_low : (versionInfo c d).extractLsb' 0 14 = c.ptype ++ c.family ++ c.model ++ c.stepping := by
  obtain ⟨hstepping, -⟩ := versionInfo_fields c d
  rw [← versionInfo_ptype_family_model c d, ← hstepping, BitVec.extractLsb'_append_extractLsb'_eq_extractLsb' (by rfl)]

@[simp] theorem brandIndexField_miscInfo : brandIndexField (miscInfo c d) = c.brandIndex := by
  obtain ⟨h, -⟩ := miscInfo_fields c d
  exact h

@[simp] theorem clflushLineBytes_miscInfo : clflushLineBytes (miscInfo c d) = 8 * c.clflushLine.toNat := by
  obtain ⟨-, h, -⟩ := miscInfo_fields c d
  rw [clflushLineBytes, byteOf, h]

end Fields

/-- The largest line size is 8 times a byte's largest value (R115). -/
theorem clflushLineBytes_le (ebx : Word) : clflushLineBytes ebx ≤ 2040 := by
  have hbyte := (byteOf ebx 1).isLt
  rw [clflushLineBytes]
  omega

/-! ### Family and model numbers, processor types, brand indices -/

/-- A field of FH gives two hexadecimal digits, the low one FH (R110). -/
theorem identificationNumber_of_valid (extended : BitVec 4) :
    identificationNumber 0xF#4 extended = extended ++ 0xF#4 := rfl

theorem identificationNumber_of_valid_toNat (extended : BitVec 4) :
    (identificationNumber 0xF#4 extended).toNat = 16 * extended.toNat + 15 := by
  rw [identificationNumber_of_valid, BitVec.toNat_append, ← Nat.shiftLeft_add_eq_or_of_lt (by decide), Nat.shiftLeft_eq,
    Nat.mul_comm]
  rfl

/-- Any other field is the number by itself (R110). -/
theorem identificationNumber_of_not_valid_toNat {field : BitVec 4} (extended : BitVec 4) (h : field ≠ 0xF#4) :
    (identificationNumber field extended).toNat = field.toNat := by
  rw [identificationNumber, if_neg (by simpa [extendedValid] using h), BitVec.toNat_append]
  simp

/-- The table "Processor Type Field" by number (R108). -/
theorem processorType_eq (f : BitVec 2) :
    processorType f =
      match f.toNat with
      | 0 => .originalOem
      | 1 => .overDrive
      | 2 => .dual
      | _ => .intelReserved := by
  revert f
  decide

theorem brandIndexEntry_of_reserved {i : BitVec 8} (h0 : i.toNat ≠ 0) (h1 : i.toNat ≠ 1) (h2 : i.toNat ≠ 2)
    (h3 : i.toNat ≠ 3) (h8 : i.toNat ≠ 8) : brandIndexEntry i = .reserved := by
  rw [brandIndexEntry, if_neg (by bv_omega), if_neg (by bv_omega), if_neg (by bv_omega), if_neg (by bv_omega),
    if_neg (by bv_omega)]

/-- The table "Mapping of Brand Indices" by number (R183). -/
theorem brandIndexEntry_eq (i : BitVec 8) :
    brandIndexEntry i =
      match i.toNat with
      | 0 => .notSupported
      | 1 => .celeron
      | 2 => .pentiumIII
      | 3 => .pentiumIIIXeon
      | 8 => .pentium4
      | _ => .reserved := by
  split
  case h_1 h => obtain rfl : i = 0#8 := BitVec.eq_of_toNat_eq h; rfl
  case h_2 h => obtain rfl : i = 1#8 := BitVec.eq_of_toNat_eq h; rfl
  case h_3 h => obtain rfl : i = 2#8 := BitVec.eq_of_toNat_eq h; rfl
  case h_4 h => obtain rfl : i = 3#8 := BitVec.eq_of_toNat_eq h; rfl
  case h_5 h => obtain rfl : i = 8#8 := BitVec.eq_of_toNat_eq h; rfl
  case h_6 h0 h1 h2 h3 h8 => exact brandIndexEntry_of_reserved h0 h1 h2 h3 h8

/-! ### The feature table -/

theorem Feature.bit_lt (f : Feature) : f.bit < 32 := by
  cases f <;> decide

/-- Every feature is found in the row of its own bit (R119). -/
theorem featureBit_bit (f : Feature) : featureBit ⟨f.bit, f.bit_lt⟩ = .named f := by
  cases f <;> rfl

theorem featureBit_eq_reserved_iff : ∀ i : Fin 32, featureBit i = .reserved ↔ i.val = 10 ∨ i.val = 20 := by
  decide

theorem featureBit_eq_lost_iff : ∀ i : Fin 32, featureBit i = .lost ↔ 27 ≤ i.val := by
  decide

/-- An instruction that needs CMOV and FPU is reported by bits 15 and 0 together (R135). -/
theorem supportsInstr_of_needs_cmov_fpu {i : ReportedInstr} (edx : Word) (h : i.needs = [.cmov, .fpu]) :
    supportsInstr edx i = true ↔ edx.getLsbD 15 = true ∧ edx.getLsbD 0 = true := by
  simp [supportsInstr, h, supports, bitOf, Feature.bit]

/-! ### The bytes of a register and the vendor test -/

theorem mem_wordBytes {v : Word} {b : Byte} : b ∈ wordBytes v ↔ ∃ k : Fin 4, b = v.extractLsb' (8 * k.val) 8 := by
  simp [wordBytes, byteOf, Fin.exists_fin_succ]

/-- A register is its four bytes, the least significant last (R9, R43). -/
theorem append_bytes_eq (v : Word) : byteOf v 3 ++ byteOf v 2 ++ byteOf v 1 ++ byteOf v 0 = v := by
  simp only [byteOf]
  rw [BitVec.extractLsb'_append_extractLsb'_eq_extractLsb' (by rfl),
    BitVec.extractLsb'_append_extractLsb'_eq_extractLsb' (by rfl),
    BitVec.extractLsb'_append_extractLsb'_eq_extractLsb' (by rfl)]
  exact BitVec.extractLsb'_eq_self

theorem wordBytes_injective : Function.Injective wordBytes := by
  intro v w h
  simp only [wordBytes, List.cons.injEq, and_true] at h
  obtain ⟨h0, h1, h2, h3⟩ := h
  rw [← append_bytes_eq v, ← append_bytes_eq w, h0, h1, h2, h3]

/-- The vendor string determines the three registers it is read from (R101). -/
theorem vendorString_eq_iff {q q' : Regs} :
    vendorString q = vendorString q' ↔ q.ebx = q'.ebx ∧ q.edx = q'.edx ∧ q.ecx = q'.ecx := by
  constructor
  · intro h
    obtain ⟨hbd, hc⟩ := List.append_inj' h rfl
    obtain ⟨hb, hd⟩ := List.append_inj' hbd rfl
    exact ⟨wordBytes_injective hb, wordBytes_injective hd, wordBytes_injective hc⟩
  · rintro ⟨hb, hd, hc⟩
    rw [vendorString, vendorString, hb, hd, hc]

/-- The vendor test passes exactly on Intel's three words (R101, R223). -/
theorem vendorIsIntel_iff {q : Regs} :
    vendorIsIntel q = true ↔ q.ebx = 0x756E6547#32 ∧ q.edx = 0x49656E69#32 ∧ q.ecx = 0x6C65746E#32 := by
  have hintel : genuineIntel = vendorString ⟨0#32, 0x756E6547#32, 0x6C65746E#32, 0x49656E69#32⟩ := by decide
  rw [vendorIsIntel, beq_iff_eq, hintel, vendorString_eq_iff]

/-- The procedure of R222 and R223 executes `CPUID` twice; its first test R8 has already made. -/
theorem readFeatureFlags_eq {s : State} (h : s.HasCpuid) :
    readFeatureFlags s =
      if vendorIsIntel (infoVendor s.cfg) = true then some (featureFlags s.cfg (Config.draws (s.executions + 1)))
      else none := by
  obtain ⟨hw, hi⟩ := h
  have hzero : query 0#32 s = some (completeWith (infoVendor s.cfg) s) :=
    query_ready rfl hw hi (cpuidResult_zero _ _)
  have hone : query 1#32 (completeWith (infoVendor s.cfg) s) = some (completeWith
      (infoVersion s.cfg (Config.draws (s.executions + 1))) (completeWith (infoVendor s.cfg) s)) :=
    query_ready (s := completeWith (infoVendor s.cfg) s) rfl hw hi (cpuidResult_one _ hw hi)
  have hmax : 1#32 ≤ (infoVendor s.cfg).eax := (hw.1 hi).1
  simp only [readFeatureFlags, hzero, hone, Option.bind_some, completeWith_regs, hmax, true_and, Option.map_some,
    infoVersion]

/-! ### Descriptors -/

/-- A register contributes its bytes where bit 31 is 0, and none otherwise (R154). -/
theorem mem_descriptorBytes {v : Word} {bytes : List Byte} {b : Byte} :
    b ∈ descriptorBytes v bytes ↔ v.getLsbD 31 = false ∧ b ∈ bytes := by
  rw [descriptorBytes, registerValid, bitOf]
  cases v.getLsbD 31 <;> simp

theorem length_descriptorBytes_le (v : Word) (bytes : List Byte) :
    (descriptorBytes v bytes).length ≤ bytes.length := by
  rw [descriptorBytes]
  split
  · exact le_rfl
  · exact Nat.zero_le _

/-- Three bytes of EAX and four of each other register (R155). -/
theorem length_descriptors_le (q : Regs) : (descriptors q).length ≤ 15 := by
  have ha := length_descriptorBytes_le q.eax [byteOf q.eax 1, byteOf q.eax 2, byteOf q.eax 3]
  have hb := length_descriptorBytes_le q.ebx (wordBytes q.ebx)
  have hc := length_descriptorBytes_le q.ecx (wordBytes q.ecx)
  have hd := length_descriptorBytes_le q.edx (wordBytes q.edx)
  simp only [wordBytes, List.length_cons, List.length_nil] at ha hb hc hd
  simp only [descriptors, List.length_append, wordBytes]
  omega

/-- No open field of `P4FIRST` is in the registers of input 2 (R7, R157). -/
theorem infoCaches_p4first (o : P4Open) :
    infoCaches (Cfg.p4first o) = ⟨0x665B5001#32, 0#32, 0#32, 0x007A7000#32⟩ := rfl

/-! ### The obligations -/

/-- Settles O21: no field of the information of input 0 is a draw. -/
theorem inputZeroReturnsMaxBasicAndVendor : Obligations.InputZeroReturnsMaxBasicAndVendor := by
  unfold Obligations.InputZeroReturnsMaxBasicAndVendor
  intro s hr heax
  exact ⟨_, execCpuid_inputZero hr heax, rfl, rfl, rfl, rfl⟩

/-- Settles O23: input 1 returns the version word, whose fields are those of R104. -/
theorem versionInformationLayout : Obligations.VersionInformationLayout := by
  unfold Obligations.VersionInformationLayout
  intro s hr heax
  exact ⟨_, execCpuid_inputOne hr heax, versionInfo_fields _ _⟩

/-- Settles O24: the fields of EBX are those of R113, and ECX is a draw (R118). -/
theorem brandLineSizeApicLayout : Obligations.BrandLineSizeApicLayout := by
  unfold Obligations.BrandLineSizeApicLayout
  intro s hr heax
  obtain ⟨hindex, hline, hreserved, hapic⟩ := miscInfo_fields s.cfg (Config.draws s.executions)
  exact ⟨_, execCpuid_inputOne hr heax, hindex, hline, hreserved, hapic, rfl⟩

/-- Settles O25: input 1 returns `features()`, bit by bit. -/
theorem featureFlagBits : Obligations.FeatureFlagBits := by
  unfold Obligations.FeatureFlagBits
  intro s hr heax
  exact ⟨_, execCpuid_inputOne hr heax, featureFlags_getLsbD _ _⟩

/-- Settles O26: no named feature has one of the drawn bits. -/
theorem namedFeaturesReportConfiguration : Obligations.NamedFeaturesReportConfiguration := by
  unfold Obligations.NamedFeaturesReportConfiguration
  intro s hr heax
  exact ⟨_, execCpuid_inputOne hr heax, supports_featureFlags _ _⟩

/-- Settles O33: the low fields of the version word are those R7 fixes, but for the stepping ID, and the family FH makes
the extended family the high digit. -/
theorem p4FirstVersionInformation : Obligations.P4FirstVersionInformation := by
  unfold Obligations.P4FirstVersionInformation
  intro s o hcfg hformat he heax
  have hfixed : 0b00#2 ++ 0b1111#4 ++ 0b0000#4 = 0b0011110000#10 := by decide
  have hstepping : ∀ x : BitVec 4, 0b00#2 ++ 0b1111#4 ++ 0b0000#4 ++ x = 0b00111100000000#14 ||| x.setWidth 14 := by
    decide
  refine ⟨_, execCpuid_inputOne (p4first_ready hcfg hformat he) heax, ?_⟩
  simp only [completeWith_regs, hcfg, infoVersion]
  refine ⟨(versionInfo_ptype_family_model _ _).trans hfixed, ?_, ?_, ?_⟩
  · exact (versionInfo_low _ _).trans (hstepping o.stepping)
  · rw [ptypeField_versionInfo]
    rfl
  · exact (familyNumber_versionInfo _ _).trans (identificationNumber_of_valid _)

/-- Settles O34: both numbers are read from a field and its extended field in the one way. -/
theorem familyAndModelNumbers : Obligations.FamilyAndModelNumbers := by
  unfold Obligations.FamilyAndModelNumbers
  intro eax
  have hvalid {field : BitVec 4} (extended : BitVec 4) (h : field = 0xF#4) :
      (identificationNumber field extended).toNat = 16 * extended.toNat + 15 ∧
      0x0F ≤ (identificationNumber field extended).toNat := by
    rw [h, identificationNumber_of_valid_toNat]
    exact ⟨rfl, Nat.le_add_left _ _⟩
  exact ⟨hvalid _, identificationNumber_of_not_valid_toNat _, hvalid _, identificationNumber_of_not_valid_toNat _⟩

/-- Settles O35: the field read is the configuration's, and a byte bounds it. -/
theorem clflushLineSizeInBytes : Obligations.ClflushLineSizeInBytes := by
  unfold Obligations.ClflushLineSizeInBytes
  intro s hr heax
  exact ⟨_, execCpuid_inputOne hr heax, clflushLineBytes_miscInfo _ _, clflushLineBytes_le _⟩

/-- Settles O38: a byte is a descriptor where it is one that its valid register contributes. -/
theorem descriptorsOfValidRegisters : Obligations.DescriptorsOfValidRegisters := by
  unfold Obligations.DescriptorsOfValidRegisters
  intro q b
  refine ⟨length_descriptors_le q, ?_⟩
  simp only [descriptors, List.mem_append, mem_descriptorBytes, mem_wordBytes, or_assoc, List.mem_cons,
    List.not_mem_nil, or_false]
  rfl

/-- Settles O39: the four words are those R7 fixes, read by the table of R156. -/
theorem p4FirstCacheReading : Obligations.P4FirstCacheReading := by
  unfold Obligations.P4FirstCacheReading
  intro s o hcfg hformat he heax
  have hinput : inputValue s = 2#32 := heax
  have hq := cpuidResult_p4first (o := o) (n := 2#32) (Config.draws s.executions) (by decide) (by decide) (by decide)
  rw [← hcfg, ← hinput] at hq
  refine ⟨_, execCpuid_ready (p4first_ready hcfg hformat he) hq, ?_⟩
  rw [completeWith_regs, hcfg, infoCaches_p4first]
  exact ⟨by decide, by decide⟩

/-- Settles O40: the fields read are the configuration's, and each table is the model's by number. -/
theorem typeAndBrandIndexReadings : Obligations.TypeAndBrandIndexReadings := by
  unfold Obligations.TypeAndBrandIndexReadings
  intro s hr heax
  refine ⟨_, execCpuid_inputOne hr heax, ?_⟩
  rw [completeWith_regs, infoVersion, brandIndexField_miscInfo, ptypeField_versionInfo]
  exact ⟨rfl, processorType_eq _, brandIndexEntry_eq _⟩

/-- Settles O44: the vendor test passes exactly on Intel's words, and the flags then read are those of input 1. -/
theorem featureFlagsReadOnIntelOnly : Obligations.FeatureFlagsReadOnIntelOnly := by
  unfold Obligations.FeatureFlagsReadOnIntelOnly
  intro s h
  refine ⟨fun hintel => ⟨_, ?_, supports_featureFlags s.cfg (Config.draws (s.executions + 1))⟩, fun hother => ?_⟩
  · rw [readFeatureFlags_eq h, if_pos (vendorIsIntel_iff.mpr hintel)]
  · rw [readFeatureFlags_eq h, if_neg fun hv => hother (vendorIsIntel_iff.mp hv)]

/-- Settles O36: CMOV has bit 15 and FPU bit 0, and both instructions need the two features. -/
theorem fcomiAndFcmovNeedCmovAndFpu : Obligations.FcomiAndFcmovNeedCmovAndFpu := by
  unfold Obligations.FcomiAndFcmovNeedCmovAndFpu
  intro edx
  refine ⟨?_, supportsInstr_of_needs_cmov_fpu edx rfl, supportsInstr_of_needs_cmov_fpu edx rfl⟩
  exact Bool.and_true _

/-- Settles O37: the bit of each feature by its constructor, and the rows without a name by all 32 of them. -/
theorem featureTableRows : Obligations.FeatureTableRows := by
  unfold Obligations.FeatureTableRows
  refine ⟨fun f edx => ?_, fun f => ⟨f.bit_lt, featureBit_bit f⟩, featureBit_eq_reserved_iff, featureBit_eq_lost_iff⟩
  cases f <;> rfl

end Sys2Proof.Machine

/-! # Proofs: the family of 42_cpuid_extended

What the extended inputs answer, to the instruction and to a procedure's query; what detection concludes from `MAX_EXT`; the
48 bytes of the brand string and its text; the choice of a technique; and, last, the obligations they settle. -/

namespace Sys2Proof.Machine

/-! ### The extended inputs -/

/-- The bounds of R8 on the highest extended input. -/
theorem maxExt_bounds {c : Cfg} (hw : c.WellFormed) (he : c.extImplemented = true) :
    0x80000000#32 ≤ c.maxExt ∧ c.maxExt ≤ 0x80000004#32 :=
  (hw.2.1 he).2

/-- The brand string's inputs, where they are recognised, select its words (R172). -/
theorem execCpuid_brand {s : State} (k : Fin 3) (hr : s.Ready) (he : s.cfg.extImplemented = true)
    (heax : s.regs.eax = 0x80000002#32 + BitVec.ofNat 32 k.val) (hmax : s.regs.eax ≤ s.cfg.maxExt) :
    execCpuid s = .next (completeWith (infoBrand s.cfg k) s) := by
  have hlow : 0x80000000#32 ≤ s.regs.eax := by
    rw [heax]
    fin_cases k <;> decide
  have hq : info s.cfg (Config.draws s.executions) s.regs.eax = some (infoBrand s.cfg k) := by rw [heax, info_brand]
  exact execCpuid_of_extended hr he hlow hmax hq

/-- A query answers the state its `CPUID` completes in. -/
theorem query_of_execCpuid {n : Word} {s t : State} (h : execCpuid (loadEax n s) = .next t) : query n s = some t := by
  rw [query, h]

section Queries

variable {s : State}

theorem query_extMax (h : s.HasCpuid) (he : s.cfg.extImplemented = true) :
    query 0x80000000#32 s = some (completeWith (infoExtMax s.cfg (Config.draws s.executions)) s) :=
  query_of_execCpuid (execCpuid_extMax (loadEax_ready _ h) he rfl)

theorem query_version (h : s.HasCpuid) :
    query 1#32 s = some (completeWith (infoVersion s.cfg (Config.draws s.executions)) s) :=
  query_of_execCpuid (execCpuid_inputOne (loadEax_ready _ h) rfl)

theorem query_brand (k : Fin 3) (h : s.HasCpuid) (he : s.cfg.extImplemented = true)
    (hmax : s.cfg.maxExt = 0x80000004#32) :
    query (0x80000002#32 + BitVec.ofNat 32 k.val) s = some (completeWith (infoBrand s.cfg k) s) := by
  refine query_of_execCpuid (execCpuid_brand k (loadEax_ready _ h) he rfl ?_)
  rw [loadEax_eax, loadEax_cfg, hmax]
  fin_cases k <;> decide

end Queries

/-! ### Detection -/

/-- Bit 31 separates the extended inputs from those below 80000000H. -/
theorem getLsbD_31_iff {r : Word} : r.getLsbD 31 = true ↔ 0x80000000#32 ≤ r := by
  rw [← BitVec.msb_eq_getLsbD_last, BitVec.msb_eq_decide, decide_eq_true_iff, BitVec.le_def]
  rfl

/-- The first test of R177 reads bit 31. -/
theorem and_bit31_ne_zero (r : Word) : (r &&& 0x80000000#32 != 0#32) = r.getLsbD 31 := by
  rw [show 0x80000000#32 = BitVec.twoPow 32 31 from rfl, BitVec.and_twoPow]
  cases r.getLsbD 31 <;> rfl

/-- On what R8 lets a processor return for input 80000000H, the second test of R177 has only 80000004H to accept. -/
theorem detection_of_bounds {r : Word} (hlow : 0x80000000#32 ≤ r) (hhigh : r ≤ 0x80000004#32) :
    detection r = ⟨true, decide (r = 0x80000004#32)⟩ := by
  have htop : 0x80000004#32 ≤ r ↔ r = 0x80000004#32 :=
    ⟨fun h => BitVec.le_antisymm hhigh h, fun h => by rw [h]; exact BitVec.le_refl _⟩
  simp only [detection, and_bit31_ne_zero, getLsbD_31_iff.mpr hlow, htop, Bool.true_and]

theorem detection_maxExt {c : Cfg} (hw : c.WellFormed) (he : c.extImplemented = true) :
    detection c.maxExt = ⟨true, decide (c.maxExt = 0x80000004#32)⟩ :=
  detection_of_bounds (maxExt_bounds hw he).1 (maxExt_bounds hw he).2

theorem detectBrandString_eq {s : State} (h : s.HasCpuid) (he : s.cfg.extImplemented = true) :
    detectBrandString s = some ⟨true, decide (s.cfg.maxExt = 0x80000004#32)⟩ := by
  rw [detectBrandString, query_extMax h he, Option.map_some, completeWith_regs, infoExtMax, detection_maxExt h.1 he]

/-! ### The brand string -/

/-- The bytes of the three executions in their order are the string's by the placement of R174 (D12). -/
theorem regsBytes_infoBrand (c : Cfg) :
    regsBytes (infoBrand c 0) ++ regsBytes (infoBrand c 1) ++ regsBytes (infoBrand c 2) = List.ofFn c.brandByte := rfl

/-- The reading procedure answers the string of the configuration; no execution changes what the next one reads. -/
theorem readBrandString_eq {s : State} (h : s.HasCpuid) (he : s.cfg.extImplemented = true)
    (hmax : s.cfg.maxExt = 0x80000004#32) : readBrandString s = some (List.ofFn s.cfg.brandByte) := by
  simp only [readBrandString, Option.bind_eq_some_iff, Option.map_eq_some_iff]
  exact ⟨_, query_brand 0 h he hmax, _, query_brand 1 h he hmax, _, query_brand 2 h he hmax, regsBytes_infoBrand _⟩

/-- Where there is a null, the text ends before one (R176). -/
theorem getElem?_length_brandText {bytes : List Byte} (h : 0#8 ∈ bytes) :
    bytes[(brandText bytes).length]? = some 0#8 := by
  induction bytes with
  | nil => cases h
  | cons b bs ih =>
    by_cases hb : b = 0#8
    · simp [brandText, hb]
    · have hbs : 0#8 ∈ bs := (List.mem_cons.mp h).resolve_left (Ne.symm hb)
      simpa [brandText, hb] using ih hbs

/-! ### The choice of a technique -/

/-- The order of R181, availability as log 23 reads it. -/
theorem chooseTechnique_eq (d : Detection) (i : BitVec 8) :
    chooseTechnique d i =
      if d.brandStringSupported = true then .brandString
      else if i ≠ 0#8 then .brandIndexTable
      else .signatureTable := by
  simp only [chooseTechnique, techniques, List.find?, techniqueAvailable, ← bne_iff_ne]
  cases d.brandStringSupported with
  | true => rfl
  | false => cases i != 0#8 <;> rfl

/-- The procedure executes `CPUID` twice, and neither the draws nor the first execution affect the choice. -/
theorem identificationTechnique_eq {s : State} (h : s.HasCpuid) (he : s.cfg.extImplemented = true) :
    identificationTechnique s = some (chooseTechnique (detection s.cfg.maxExt) s.cfg.brandIndex) := by
  simp only [identificationTechnique, Option.bind_eq_some_iff, Option.map_eq_some_iff]
  refine ⟨_, query_extMax h he, _, query_version h, ?_⟩
  simp only [completeWith_regs, completeWith_cfg, infoExtMax, infoVersion, brandIndexField_miscInfo]

/-! ### The obligations -/

/-- Settles O16: such an input is above both highest inputs, or there are no extended ones. -/
theorem highInputsOutOfRange : Obligations.HighInputsOutOfRange := by
  unfold Obligations.HighInputsOutOfRange
  intro c n hw hi hn
  have hbasic := maxBasic_le_three hw hi
  cases he : c.extImplemented with
  | false => exact classify_outOfRange_of_not_extImplemented (by bv_omega) he
  | true =>
    obtain ⟨-, hhigh⟩ := maxExt_bounds hw he
    exact classify_outOfRange_of_maxExt_lt (by bv_omega) (by bv_omega)

/-- Settles O29: input 80000000H returns `MAX_EXT`, which R8 bounds from below. -/
theorem extendedMaximumReturned : Obligations.ExtendedMaximumReturned := by
  unfold Obligations.ExtendedMaximumReturned
  intro s hr he heax
  have hbit := getLsbD_31_iff.mpr (maxExt_bounds hr.1.1 he).1
  exact ⟨_, execCpuid_extMax hr he heax, rfl, hbit, rfl, rfl, rfl⟩

/-- Settles O31: the three inputs select the brand string's words by one rule. -/
theorem brandStringWords : Obligations.BrandStringWords := by
  unfold Obligations.BrandStringWords
  intro s k hr he heax hmax
  exact ⟨_, execCpuid_brand k hr he heax hmax, rfl, rfl, rfl, rfl⟩

/-- Settles O41: detection reads `MAX_EXT`, which R8 keeps between 80000000H and 80000004H. -/
theorem brandStringDetection : Obligations.BrandStringDetection := by
  unfold Obligations.BrandStringDetection
  intro s h he
  exact ⟨_, detectBrandString_eq h he, rfl, decide_eq_true_iff⟩

/-- Settles O42: the bytes read are the configuration's brand bytes in order. -/
theorem brandStringRead : Obligations.BrandStringRead := by
  unfold Obligations.BrandStringRead
  intro s h he hmax
  refine ⟨_, readBrandString_eq h he hmax, List.length_ofFn, fun i => ?_⟩
  rw [List.getElem?_ofFn, dif_pos i.isLt]
  rfl

/-- Settles O43: the 48th byte read is null, so the text ends before a null, at the 48th byte or earlier. -/
theorem brandTextFitsFortySevenCharacters : Obligations.BrandTextFitsFortySevenCharacters := by
  unfold Obligations.BrandTextFitsFortySevenCharacters
  intro s h he hmax
  obtain ⟨hascii, hnull⟩ := brandByte_of_wellFormed h.1 he
  have hend := getElem?_length_brandText (List.mem_ofFn.mpr ⟨47, hnull⟩)
  refine ⟨_, readBrandString_eq h he hmax, ?_, fun b hb => ?_, hend⟩
  · obtain ⟨hlt, -⟩ := List.getElem?_eq_some_iff.mp hend
    rw [List.length_ofFn] at hlt
    exact Nat.le_of_lt_succ hlt
  · obtain ⟨i, rfl⟩ := List.mem_ofFn.mp ((List.takeWhile_sublist _).subset hb)
    exact hascii i

/-- Settles O45: detection finds the brand string exactly where `MAX_EXT` is 80000004H, and the order is R181's. -/
theorem identificationPriority : Obligations.IdentificationPriority := by
  unfold Obligations.IdentificationPriority
  intro s h he
  rw [identificationTechnique_eq h he, chooseTechnique_eq, detection_maxExt h.1 he, apply_ite some, apply_ite some]
  simp only [decide_eq_true_eq]

/-- Settles O55: EDX[31:24] of the last of the three inputs is the string's 48th byte. -/
theorem brandStringEndsInNull : Obligations.BrandStringEndsInNull := by
  unfold Obligations.BrandStringEndsInNull
  intro s hr he hmax heax
  have hle : s.regs.eax ≤ s.cfg.maxExt := by rw [heax, hmax]; exact BitVec.le_refl _
  exact ⟨_, execCpuid_brand 2 hr he heax hle, (brandByte_of_wellFormed hr.1.1 he).2⟩

end Sys2Proof.Machine

/-! # Proofs: the family of 70_reset_and_hazards

A step's outcome against the host's step; what a run answers after its first step, and after it has ended; and, last, the
obligation they settle. -/

namespace Sys2Proof.Machine

/-! ### The outcomes of R230 and the host's -/

/-- The name `runEnded` is the host's alone (log 13): neither R8's check, nor a fetch, nor the meaning refuses by it. -/
theorem stepOutcome_ne_refusal_runEnded (s : State) : stepOutcome s ≠ .refusal .runEnded := by
  rcases stepOutcome_cases s with ⟨-, ho⟩ | ⟨-, -, ho⟩ | ⟨hw, he, r, hf, ho⟩ | ⟨hw, he, i, hf, ho⟩
  · simp [ho]
  · simp [ho]
  · simp [ho, (fetchInstr_error hf).2]
  · intro h
    have hstep : step s = .refused .runEnded := by rw [step, h]
    exact he (step_runEnded_iff.mp hstep).2

theorem stepOutcome_final_iff {s : State} : stepOutcome s = .final ↔ step s = .refused .runEnded := by
  have hne := stepOutcome_ne_refusal_runEnded s
  rw [step]
  cases ho : stepOutcome s with
  | final => simp
  | refusal r => simpa [ho] using hne
  | fault f => simp
  | next t => simp

theorem stepOutcome_next_iff {s t : State} : stepOutcome s = .next t ↔ step s = .next t := by
  rw [step]
  cases stepOutcome s <;> simp

theorem stepOutcome_fault_iff {s : State} {f : Fault} : stepOutcome s = .fault f ↔ step s = .fault f := by
  rw [step]
  cases stepOutcome s <;> simp

/-- A refusal keeps its name, unless the name is the one that the end of a run takes. -/
theorem stepOutcome_refusal_iff {s : State} {r : Refusal} (hr : r ≠ .runEnded) :
    stepOutcome s = .refusal r ↔ step s = .refused r := by
  rw [step]
  cases stepOutcome s with
  | final => simp [hr.symm]
  | refusal r' => simp
  | fault f => simp
  | next t => simp

/-! ### Runs -/

/-- A run whose first step answers a next state goes on from there. -/
theorem run_succ_of_next {s t : State} (n : Nat) (h : stepOutcome s = .next t) : run (n + 1) s = run n t := by
  rw [run, h]

/-- A run whose first step answers no next state stops with what that step answers. -/
theorem run_succ_of_stop {s : State} (n : Nat) (h : ∀ t, stepOutcome s ≠ .next t) : run (n + 1) s = stepOutcome s := by
  rw [run]
  cases ho : stepOutcome s with
  | next t => exact absurd ho (h t)
  | final => rfl
  | refusal r => rfl
  | fault f => rfl

/-- More steps do not change the answer of a run that has stopped. -/
theorem run_add_of_stopped {n : Nat} (k : Nat) {s : State} (h : ∀ t, run n s ≠ .next t) : run (n + k) s = run n s := by
  induction n generalizing s with
  | zero => exact absurd rfl (h s)
  | succ n ih =>
    rw [Nat.add_right_comm]
    by_cases hnext : ∃ t, stepOutcome s = .next t
    · obtain ⟨t, ht⟩ := hnext
      rw [run_succ_of_next n ht] at h ⊢
      rw [run_succ_of_next (n + k) ht, ih h]
    · have hstop : ∀ t, stepOutcome s ≠ .next t := not_exists.mp hnext
      rw [run_succ_of_stop n hstop, run_succ_of_stop (n + k) hstop]

/-! ### The obligation -/

/-- Settles O52: `step` renames the end of a run and nothing else, and a run is decided by the first step that answers no
next state. -/
theorem endedRunsStayEnded : Obligations.EndedRunsStayEnded := by
  unfold Obligations.EndedRunsStayEnded
  refine ⟨fun s => ⟨stepOutcome_final_iff, ?_, ?_, ?_⟩, fun n k s h => run_add_of_stopped k h⟩
  · exact fun t => stepOutcome_next_iff
  · exact fun f => stepOutcome_fault_iff
  · exact fun r hr => stepOutcome_refusal_iff hr

end Sys2Proof.Machine
